-- ==== Sys2Proof/Word.lean ====
section
/-! DEFINITION. The widths of rule R6 (00_scope.md): the signed integer `XLEN`, the byte and the nibble. -/

namespace Sys2Proof

/-- A signed 64-bit integer as its two's complement pattern (R6 `XLEN`, R21). -/
abbrev Word := BitVec 64

/-- One element of a byte sequence (R6 `BYTE`). -/
abbrev Byte := BitVec 8

/-- One half of a byte (R6 `NIBBLE`). -/
abbrev Nibble := BitVec 4

end Sys2Proof
end

