-- ==== Sys2Proof/Machine/Transactions.lean ====
section
/-! DEFINITION. What the agents outside the codec can do: the host's transactions (R60, 20_memory.md), the bus accesses that carry
them (R105), the values its reads return, and the turns of the schedule (R35). -/

namespace Sys2Proof.Machine

/-- The host transactions of R60: the ten of its table, and the two writes without effect it lists for completeness. -/
inductive Transaction where
  /-- `HW_VAL(v)` -/
  | hwVal (v : Word)
  /-- `HR_VAL()` -/
  | hrVal
  /-- `HR_RES()` -/
  | hrRes
  /-- `HW_LEN(n)` -/
  | hwLen (n : Byte)
  /-- `HR_LEN()` -/
  | hrLen
  /-- `HW_BUF(i, b)` -/
  | hwBuf (i : Nat) (b : Byte)
  /-- `HR_BUF(i)` -/
  | hrBuf (i : Nat)
  /-- `HW_CMD(c)`, the Issue step of R40 -/
  | hwCmd (c : Byte)
  /-- `HR_STATUS()` -/
  | hrStatus
  /-- `HR_CMD()` -/
  | hrCmd
  /-- `HW_RES(v)`: no effect -/
  | hwRes (v : Word)
  /-- `HW_STATUS(b)`: no effect -/
  | hwStatus (b : Byte)
  deriving DecidableEq, Repr

/-- What a platform bus carries to the block (R105): a kind, a byte offset from the base address, and the data of a write. -/
inductive BusAccess where
  /-- `WR64`: a 64-bit write. -/
  | wr64 (offset : Nat) (data : Word)
  /-- `RD64`: a 64-bit read. -/
  | rd64 (offset : Nat)
  /-- `WR8`: an 8-bit write. -/
  | wr8 (offset : Nat) (data : Byte)
  /-- `RD8`: an 8-bit read. -/
  | rd8 (offset : Nat)
  /-- An access of any other width, in bits: never a transaction (R60, R70). -/
  | otherWidth (bits offset : Nat)
  deriving DecidableEq, Repr

/-- The byte offset of an access from the block's base address. -/
def BusAccess.offset : BusAccess → Nat
  | .wr64 off _ => off
  | .rd64 off => off
  | .wr8 off _ => off
  | .rd8 off => off
  | .otherWidth _ off => off

/-- A value that a host read returned, under the name of what was read. -/
inductive Reading where
  | val (v : Word)
  | res (v : Word)
  | len (n : Byte)
  | buf (i : Nat) (b : Byte)
  | status (b : Byte)
  | cmd (b : Byte)
  deriving DecidableEq, Repr

/-- One entry of the schedule (R35): which agent moves next, and how (log 3, log 13). -/
inductive Turn where
  /-- The host makes one bus access. -/
  | host (a : BusAccess)
  /-- The host polls `STATUS` until `DONE = 1` (`wait`, R106); the codec gets a turn after `polls` + 1 polls, and then after each
  further poll. -/
  | wait (polls : Nat)
  /-- The codec moves: Complete if it is enabled, else nothing. -/
  | codec
  /-- Reset (R42). -/
  | reset
  /-- Power-up: Reset, and the buffer's contents are drawn anew (R301). -/
  | powerUp
  deriving DecidableEq, Repr

end Sys2Proof.Machine
end

