-- ==== Sys2Proof/Machine/Bus.lean ====
section
/-! DEFINITION. The address map of R62 (20_memory.md): which bus access is which transaction, and back. -/

namespace Sys2Proof.Machine

/-- Offset of `VAL` (R62). -/
abbrev offVal : Nat := 0x00
/-- Offset of `RES` (R62). -/
abbrev offRes : Nat := 0x08
/-- Offset of `CMD` (R62). -/
abbrev offCmd : Nat := 0x10
/-- Offset of `STATUS` (R62). -/
abbrev offStatus : Nat := 0x11
/-- Offset of `LEN` (R62). -/
abbrev offLen : Nat := 0x12
/-- Offset of `BUF[0]` (R62). -/
abbrev offBuf : Nat := 0x20

/-- The cell of the buffer that lies at an offset, where one does: 0x20 + i with i < BUFLEN (R62). -/
def bufCellAt (bufLen offset : Nat) : Option Nat :=
  if offBuf ≤ offset ∧ offset < offBuf + bufLen then some (offset - offBuf) else none

/-- The transaction a bus access is, by R62; `none` for an access that is not a transaction (R60: another width, another
offset, an index >= BUFLEN). -/
def BusAccess.transaction (bufLen : Nat) : BusAccess → Option Transaction
  | .wr64 off v =>
      if off = offVal then some (.hwVal v)
      else if off = offRes then some (.hwRes v)
      else none
  | .rd64 off =>
      if off = offVal then some .hrVal
      else if off = offRes then some .hrRes
      else none
  | .wr8 off b =>
      if off = offCmd then some (.hwCmd b)
      else if off = offStatus then some (.hwStatus b)
      else if off = offLen then some (.hwLen b)
      else (bufCellAt bufLen off).map (fun i => .hwBuf i b)
  | .rd8 off =>
      if off = offCmd then some .hrCmd
      else if off = offStatus then some .hrStatus
      else if off = offLen then some .hrLen
      else (bufCellAt bufLen off).map .hrBuf
  | .otherWidth _ _ => none

/-- The bus access that carries a transaction (the "bus encoding" column of R105, with the offsets of R62). -/
def Transaction.access : Transaction → BusAccess
  | .hwVal v => .wr64 offVal v
  | .hrVal => .rd64 offVal
  | .hrRes => .rd64 offRes
  | .hwLen n => .wr8 offLen n
  | .hrLen => .rd8 offLen
  | .hwBuf i b => .wr8 (offBuf + i) b
  | .hrBuf i => .rd8 (offBuf + i)
  | .hwCmd c => .wr8 offCmd c
  | .hrStatus => .rd8 offStatus
  | .hrCmd => .rd8 offCmd
  | .hwRes v => .wr64 offRes v
  | .hwStatus b => .wr8 offStatus b

end Sys2Proof.Machine
end

