-- ==== Sys2Proof/Machine/Nibbles.lean ====
section
/-! DEFINITION. Bytes and their nibbles, as R9 and R10 (00_scope.md) write them. -/

namespace Sys2Proof.Machine

/-- `hi(b) = b[7:4]` (R9). -/
def hi (b : Byte) : Nibble := b.extractLsb' 4 4

/-- `lo(b) = b[3:0]` (R9). -/
def lo (b : Byte) : Nibble := b.extractLsb' 0 4

/-- `byte(h, l) = h * 16 + l` (R9): the high nibble is the first of the pair (R67). -/
def byteOf (h l : Nibble) : Byte := h ++ l

/-- `nibbles(bs)` (R10): the nibble string of a byte sequence, high nibble first. -/
def nibbles : List Byte → List Nibble
  | [] => []
  | b :: bs => hi b :: lo b :: nibbles bs

/-- Packs a nibble string two per byte, high nibble = first of pair (R211). A last nibble without a partner makes no byte;
the encoder's strings have even length. -/
def packNibbles : List Nibble → List Byte
  | h :: l :: ns => byteOf h l :: packNibbles ns
  | _ => []

end Sys2Proof.Machine
end

