-- ==== Sys2Proof/Syntax.lean ====
section
/-! DEFINITION. The commands of R91 (30_encoding.md), one constructor per row of spec/opcode_table.json. Every command carries the
nibble `NIB = c[7:4]` of its word: CHKD tests it, the four commands of format `C` ignore it (R92, D29; log 16). -/

namespace Sys2Proof

/-- A command of the block. Operands and destinations other than `NIB` are implicit in the opcode (R93). -/
inductive Instr where
  /-- ENCZ: encode `VAL` as zoned decimal into `BUF`, `LEN` (R162). -/
  | encz (nib : Nibble)
  /-- DECZ: decode zoned decimal `BUF[0..LEN-1]` into `RES` (R181). -/
  | decz (nib : Nibble)
  /-- ENCP: encode `VAL` as packed decimal into `BUF`, `LEN` (R212). -/
  | encp (nib : Nibble)
  /-- DECP: decode packed decimal `BUF[0..LEN-1]` into `RES` (R231). -/
  | decp (nib : Nibble)
  /-- CHKD n: digit validator, `DV <- IsDigit(n)` (R132). -/
  | chkd (nib : Nibble)
  deriving DecidableEq, Repr

end Sys2Proof
end

