-- ==== Sys2Proof/Decode.lean ====
section
/-! DEFINITION. The command word (R90 to R95, 30_encoding.md): its decoder, total on all 256 words, and its encoder. -/

namespace Sys2Proof

/-- Why a command word is illegal (R90, R91, R94). -/
inductive DecodeError where
  /-- Bit 3 (`Z`) is 1: illegal whatever `OP` is (R90). -/
  | reservedBitSet
  /-- `OP` is 0, 6 or 7 (R91). -/
  | reservedOp (op : BitVec 3)
  deriving DecidableEq, Repr

/-- What a command word is: a command, or illegal for a reason. -/
inductive DecodedWord where
  | command (i : Instr)
  | illegal (e : DecodeError)
  deriving DecidableEq, Repr

/-- Whether the word is legal (R94). -/
def DecodedWord.isCommand : DecodedWord → Bool
  | .command _ => true
  | .illegal _ => false

/-- `OP = c[2:0]` (R90). -/
def opField (c : Byte) : BitVec 3 := c.extractLsb' 0 3

/-- `Z = c[3]` (R90). -/
def zField (c : Byte) : Bool := c.getLsbD 3

/-- `NIB = c[7:4]`, used as it stands (R92). -/
def nibField (c : Byte) : Nibble := Machine.hi c

/-- Decodes a command word (R94), rejecting by name what R91 reserves. -/
def decode (c : Byte) : DecodedWord :=
  if zField c then .illegal .reservedBitSet
  else match (opField c).toNat with
    | 1 => .command (.encz (nibField c))
    | 2 => .command (.decz (nibField c))
    | 3 => .command (.encp (nibField c))
    | 4 => .command (.decp (nibField c))
    | 5 => .command (.chkd (nibField c))
    | _ => .illegal (.reservedOp (opField c))

/-- The low nibble that selects a command: `Z = 0` above `OP` (R91). -/
def opcodeOf : Instr → Nibble
  | .encz _ => 0b0001
  | .decz _ => 0b0010
  | .encp _ => 0b0011
  | .decp _ => 0b0100
  | .chkd _ => 0b0101

/-- The nibble a command carries in `c[7:4]`. -/
def nibOf : Instr → Nibble
  | .encz n => n
  | .decz n => n
  | .encp n => n
  | .decp n => n
  | .chkd n => n

/-- The command word of an instruction (R90, R91): `NIB` above the opcode. -/
def encode (i : Instr) : Byte := Machine.byteOf (nibOf i) (opcodeOf i)

/-- The canonical word of a format `C` command has `NIB = 0`; every word of CHKD is canonical (R92). -/
def isCanonical : Instr → Bool
  | .encz n => n == 0
  | .decz n => n == 0
  | .encp n => n == 0
  | .decp n => n == 0
  | .chkd _ => true

/-- The instruction the decoder reads from an instruction of the opcode table. A command is always exactly one 8-bit word
(R95), so only bits 7..0 of `w` are its bits, whatever `nbits` says. -/
def decodeTableWord (_nbits w : Nat) : Option Instr :=
  match decode (BitVec.ofNat 8 w) with
  | .command i => some i
  | .illegal _ => none

end Sys2Proof
end

