-- ==== Sys2Proof/Config.lean ====
section
/-! DEFINITION. What one instance fixes (`BUFLEN`, R8), the hardwired nibble constants (R6), the derived limits (R7) and the free
power-up contents of the buffer (R44). -/

namespace Sys2Proof

/-- The parameter of one DCODEC instance (R8). -/
structure Config where
  /-- `BUFLEN`, the number of byte cells of `BUF`: 20 to 255 (R8), checked by `Config.wellFormed`. -/
  bufLen : Nat
  deriving DecidableEq, Repr

/-- The default instance of R8, `BUFLEN = 32`. -/
def Config.default : Config := { bufLen := 32 }

/-- FREE VALUE (R44, U5): what cell `i` of the buffer holds after power-up number `k`, until something writes it. Any value:
one draw per cell and power-up. Log entry 1. -/
opaque Config.bufPowerUp : Nat → Nat → Byte

/-- `ZONE`: the zone marker, high nibble of every zoned byte except the last (R6). -/
abbrev zoneMarker : Nibble := 0x3
/-- `ZPOS`: zoned sign nibble of a value >= 0 (R6). -/
abbrev zonedPositive : Nibble := 0x3
/-- `ZNEG`: zoned sign nibble of a negative value (R6). -/
abbrev zonedNegative : Nibble := 0x7
/-- `PPOS`: packed sign nibble of a value >= 0 (R6). -/
abbrev packedPositive : Nibble := 0xC
/-- `PNEG`: packed sign nibble of a negative value (R6). -/
abbrev packedNegative : Nibble := 0xD

/-- `INT64_MAX` as a natural number (R7). -/
abbrev int64Max : Nat := 9223372036854775807
/-- `MAXMAG` = 2^63, the largest magnitude of any value (R7). -/
abbrev maxMagnitude : Nat := 9223372036854775808

end Sys2Proof
end

