-- ==== Sys2Proof/Machine/Numeric.lean ====
section
/-! DEFINITION. The arithmetic all four conversions share (R131 to R142, 40_common_numeric.md), exact on naturals. Layer 1. -/

namespace Sys2Proof.Machine

/-- `IsDigit(n)`: n <= 9 (R131). -/
def isDigit (n : Nibble) : Bool := decide (n.toNat ≤ 9)

/-- The gate equation of R131, `not (n[3] and (n[2] or n[1]))`. -/
def isDigitGate (n : Nibble) : Bool := !(n.getLsbD 3 && (n.getLsbD 2 || n.getLsbD 1))

/-- `Neg(v)` is `sint(v) < 0` (R134). -/
def isNeg (v : Word) : Bool := decide (v.toInt < 0)

/-- `Mag(v)`, the natural number `|sint(v)|`, exact for -2^63 too (R133). -/
def mag (v : Word) : Nat := v.toInt.natAbs

/-- Collects the decimal digits of `m` in front of `acc`, least significant first found. The first argument bounds the number of
digits and only makes the recursion structural. -/
def digitsOnto : Nat → Nat → List Nat → List Nat
  | 0, _, acc => acc
  | fuel + 1, m, acc => if m < 10 then m :: acc else digitsOnto fuel (m / 10) (m % 10 :: acc)

/-- `Digits(m)`: the decimal digits, most significant first, no leading zero, `Digits(0) = [0]` (R135). A number has no more
decimal digits than binary ones. -/
def digits (m : Nat) : List Nat := digitsOnto (m.log2 + 1) m []

/-- `NumDigits(m)`, the length of `Digits(m)` (R135). -/
def numDigits (m : Nat) : Nat := (digits m).length

/-- `DigitsValue(ds)`: from 0, `acc <- acc*10 + d` for each digit in order (R136). DESIGN CHOICE (log 19): R136 has no value for
the empty list or for entries above 9; there the same fold answers, 0 for the empty list. No command reaches either. -/
def digitsValue (ds : List Nat) : Nat := ds.foldl (fun acc d => acc * 10 + d) 0

/-- A digit as the nibble that holds it. A number above 15, which is no digit, would lose its high bits (log 19). -/
def digitNibble (d : Nat) : Nibble := BitVec.ofNat 4 d

/-- The four error kinds of the Layer 1 functions (R261, codes 1 to 4). -/
inductive ErrorKind where
  /-- A high nibble outside the last byte is not the zone marker (R263). -/
  | invalidZonePart
  /-- The sign position holds neither marker (R264). -/
  | invalidSignPart
  /-- A digit position holds a nibble above 9 (R265). -/
  | invalidDigitPart
  /-- The magnitude is out of the signed 64-bit range (R274). -/
  | overflow
  deriving DecidableEq, Repr

/-- The result of a Layer 1 decode, `Ok(v)` or `Err(kind)` (R9, R260). -/
inductive Decoded where
  | ok (v : Word)
  | err (k : ErrorKind)
  deriving DecidableEq, Repr

/-- `ToInt64(neg, m)`: the bounds are not symmetric (R137). -/
def toInt64 (neg : Bool) (m : Nat) : Decoded :=
  if neg then
    if m > maxMagnitude then .err .overflow else .ok (BitVec.ofInt 64 (-(m : Int)))
  else
    if m > int64Max then .err .overflow else .ok (BitVec.ofInt 64 (m : Int))

/-- The state of the bounded-width accumulator of R141: 64 unsigned bits and a sticky bit. -/
structure Accumulator where
  acc : BitVec 64
  big : Bool
  deriving DecidableEq, Repr

/-- One digit into the accumulator of R141: `t = acc*10 + d` exact, kept while it does not exceed 2^63. -/
def Accumulator.push (a : Accumulator) (d : Nat) : Accumulator :=
  let t := a.acc.toNat * 10 + d
  if a.big || decide (t > maxMagnitude) then { a with big := true } else { a with acc := BitVec.ofNat 64 t }

/-- The accumulator after a list of digits, both parts 0 at the start (R141). -/
def accumulate (ds : List Nat) : Accumulator := ds.foldl Accumulator.push { acc := 0, big := false }

/-- The range test and result of R141, from the accumulator alone. -/
def Accumulator.toInt64 (neg : Bool) (a : Accumulator) : Decoded :=
  if neg then
    if a.big then .err .overflow else .ok (-a.acc)
  else
    if a.big || decide (a.acc.toNat = maxMagnitude) then .err .overflow else .ok a.acc

end Sys2Proof.Machine
end

