-- ==== Sys2Proof/Machine/State.lean ====
section
/-! DEFINITION. The state of one DCODEC instance (R20, 10_state.md), as plain data, the reasons a step can stop, and the state
after power-up reset (R43). -/

namespace Sys2Proof.Machine

/-- The stored fields of `STATUS` (R28). Bits 3 and 7 are hardwired 0 (R33) and have no storage; `Status.word` is the byte the
host reads. -/
structure Status where
  /-- bit 0 (R29) -/
  busy : Bool
  /-- bit 1 (R30) -/
  done : Bool
  /-- bit 2 (R31) -/
  dv   : Bool
  /-- bits 6:4 (R32) -/
  err  : BitVec 3
  deriving DecidableEq, Repr

/-- The cells of `BUF` written since power-up, as (index, byte) pairs: indices strictly rising, one entry for each written
cell. An unlisted cell holds its power-up contents (R44; log 1). -/
abbrev Memory := List Host.Cell

/-- The whole state. The fields down to `cur` are the spec's (R20) with the instance's parameter (R8, R35); the last three are
the model's own (log 1, 3, 4). -/
structure State where
  /-- The parameter `BUFLEN` of this instance; no step changes it (log 2). -/
  cfg      : Config
  /-- `VAL`: the operand of the encoders (R21). -/
  val      : Word
  /-- `RES`: the result of the decoders (R22). -/
  res      : Word
  /-- `LEN`: number of valid bytes in `BUF` (R25). -/
  len      : Byte
  /-- `BUF` (R26). -/
  buf      : Memory
  /-- `STATUS` (R28). -/
  status   : Status
  /-- `CUR`: the command word latched at Issue (R34). -/
  cur      : Byte
  /-- How often the block was powered up again; it selects the free power-up contents of `BUF` (log 1). -/
  powerUps : Nat
  /-- The schedule: the turns still to come, first one first (R35; log 3). -/
  turns    : List Turn
  /-- What the host's reads returned, newest first (log 4). -/
  reads    : List Reading
  deriving DecidableEq, Repr

/-- Why the machine stops with a fault. -/
inductive Fault where
  /-- An encoder would write a cell of index BUFLEN or above, which does not exist (R26, R72). Raised by ENCZ and ENCP, and only
  on an instance whose BUFLEN breaks R8. Safe: it allows nothing the spec forbids (log 7). -/
  | noSuchCell
  deriving DecidableEq, Repr

/-- Why the machine gives no meaning. -/
inductive Refusal where
  /-- An instruction that has no meaning yet, by its mnemonic. Raised by refused arms of `exec` only (there are none). Safe. -/
  | notModelled (mnemonic : String)
  /-- A host access at this offset is not a transaction of R60 (U11: `refuse`). Raised by the host's turn. Safe (log 6). -/
  | notATransaction (offset : Nat)
  deriving DecidableEq, Repr

/-- `STATUS` reads 0x00 after Reset (R43). -/
def Status.reset : Status := { busy := false, done := false, dv := false, err := 0 }

/-- An instance with the given parameter right after its first power-up (R43, R301). No cell of `BUF` is listed: each holds its
unspecified power-up value (R44). -/
def State.resetOf (cfg : Config) : State :=
  { cfg := cfg, val := 0, res := 0, len := 0, buf := [], status := Status.reset, cur := 0,
    powerUps := 0, turns := [], reads := [] }

/-- The default instance (R8) right after its first power-up, with nothing scheduled. -/
def State.reset : State := State.resetOf Config.default

end Sys2Proof.Machine
end

