-- ==== Sys2Proof/Machine/Flags.lean ====
section
/-! DEFINITION. `STATUS`: its byte (R28), its values at Issue and Complete (R40, R41), and the error codes (R261). -/

namespace Sys2Proof.Machine

/-- The byte a read of `STATUS` returns, bit 7 first: 0, ERR, 0, DV, DONE, BUSY (R28, R33). -/
def Status.word (st : Status) : Byte :=
  (0 : BitVec 1) ++ st.err ++ (0 : BitVec 1) ++ BitVec.ofBool st.dv ++ BitVec.ofBool st.done ++ BitVec.ofBool st.busy

/-- `STATUS` right after an accepted Issue: busy, everything else cleared (R40). -/
def Status.issued : Status := { busy := true, done := false, dv := false, err := 0 }

/-- What Complete writes to `STATUS` when the command ended with code `e` (R41): ERR, BUSY and DONE, not DV. -/
def Status.completed (st : Status) (e : BitVec 3) : Status := { st with err := e, busy := false, done := true }

/-- What CHKD writes to `DV`; nothing else writes it but Issue and Reset (R31, R132). -/
def Status.withDv (st : Status) (d : Bool) : Status := { st with dv := d }

/-- Code of a command that completed without error (R261). -/
abbrev errNone : BitVec 3 := 0
/-- Code of `InvalidLength` (R261, R266). -/
abbrev errInvalidLength : BitVec 3 := 5
/-- Code of `IllegalCommand` (R261, R267). -/
abbrev errIllegalCommand : BitVec 3 := 6

/-- The codes 1 to 4 of the Layer 1 error kinds (R261). -/
def ErrorKind.code : ErrorKind → BitVec 3
  | .invalidZonePart => 1
  | .invalidSignPart => 2
  | .invalidDigitPart => 3
  | .overflow => 4

/-- The codes each command can end with (the "raised by" column of R261, and R231: DECP never reports code 1). -/
def errAllowed (i : Instr) (e : BitVec 3) : Bool :=
  match i with
  | .encz _ => e == 0
  | .encp _ => e == 0
  | .chkd _ => e == 0
  | .decz _ => decide (e.toNat ≤ 5)
  | .decp _ => decide (e.toNat ≤ 5) && e != 1

end Sys2Proof.Machine
end

