-- ==== Sys2Proof/Machine/Ops.lean ====
section
/-! DEFINITION. The named operations over the registers and the buffer, the handshake steps Issue, Complete and Reset (R40 to
R42), and the host's transactions (R60). Meanings and turns are written over these. -/

namespace Sys2Proof.Machine

/-! ### One setter for each field -/

/-- `VAL <- v` -/
def State.setVal (s : State) (v : Word) : State := { s with val := v }
/-- `RES <- v` -/
def State.setRes (s : State) (v : Word) : State := { s with res := v }
/-- `LEN <- n` -/
def State.setLen (s : State) (n : Byte) : State := { s with len := n }
/-- The buffer's written cells. -/
def State.setBuf (s : State) (m : Memory) : State := { s with buf := m }
/-- `STATUS`, all fields at once. -/
def State.setStatus (s : State) (st : Status) : State := { s with status := st }
/-- `CUR <- c` -/
def State.setCur (s : State) (c : Byte) : State := { s with cur := c }
/-- The schedule. -/
def State.setTurns (s : State) (ts : List Turn) : State := { s with turns := ts }
/-- Records a value that a host read returned. -/
def State.logRead (s : State) (r : Reading) : State := { s with reads := r :: s.reads }
/-- Counts one more power-up: another draw of the buffer's contents (R301). -/
def State.nextPowerUp (s : State) : State := { s with powerUps := s.powerUps + 1 }

/-! ### The buffer as a list of written cells -/

/-- The byte written to cell `i` since power-up, if any. -/
def Memory.lookup : Memory → Nat → Option Byte
  | [], _ => none
  | (j, b) :: m, i => if j = i then some b else Memory.lookup m i

/-- Writes cell `i`, keeping the indices strictly rising. -/
def Memory.write : Memory → Nat → Byte → Memory
  | [], i, b => [(i, b)]
  | (j, c) :: m, i, b =>
      if i < j then (i, b) :: (j, c) :: m
      else if i = j then (i, b) :: m
      else (j, c) :: Memory.write m i b

/-- Writes `bs` to the cells from `i` on (R61: one byte at a time). -/
def Memory.writeSeq : Memory → Nat → List Byte → Memory
  | m, _, [] => m
  | m, i, b :: bs => Memory.writeSeq (Memory.write m i b) (i + 1) bs

/-- The indices rise strictly from `lo` on and stay below `size`. -/
def Memory.wfFrom (size : Nat) : Nat → Memory → Bool
  | _, [] => true
  | lo, (j, _) :: m => decide (lo ≤ j) && decide (j < size) && Memory.wfFrom size (j + 1) m

/-- The canonical form of a buffer of `size` cells: indices strictly rising, each below `size`. An unlisted cell is one that
nothing has written since power-up, so no entry can repeat what an unlisted cell holds (log 1). -/
def Memory.wf (size : Nat) (m : Memory) : Bool := Memory.wfFrom size 0 m

/-- What a cell that nothing has written since power-up holds: its draw (R44), a free value (log 1). -/
def State.unlisted (s : State) (i : Nat) : Byte := Config.bufPowerUp s.powerUps i

/-- `BUF[i]`. Reading has no side effect (R61). An index of BUFLEN or above names no cell, and nothing reads one (R72; log 19). -/
def State.readBuf (s : State) (i : Nat) : Byte :=
  match Memory.lookup s.buf i with
  | some b => b
  | none => s.unlisted i

/-- `BUF[i] <- b` -/
def State.writeBuf (s : State) (i : Nat) (b : Byte) : State := s.setBuf (Memory.write s.buf i b)

/-- `[BUF[0], BUF[1], ..., BUF[n-1]]` -/
def State.readSeq (s : State) (n : Nat) : List Byte := (List.range n).map s.readBuf

/-- `BUF[i] <- bs[i]` for every i below the length of `bs`. -/
def State.writeSeq (s : State) (bs : List Byte) : State := s.setBuf (Memory.writeSeq s.buf 0 bs)

/-! ### The handshake -/

/-- Issue of the word `c` (R40): dropped while busy, otherwise latched. The content of `c` is not looked at. -/
def State.issue (s : State) (c : Byte) : State :=
  if s.status.busy then s else (s.setCur c).setStatus Status.issued

/-- The end of every Complete (R41): ERR is the command's code, BUSY falls, DONE rises. -/
def State.complete (s : State) (e : BitVec 3) : State := s.setStatus (s.status.completed e)

/-- A command ends with an error: the block's only kind of exception. Nothing but `STATUS` is written, no trap is taken, and
there is nothing to return from (R260, R262, R271). -/
def State.raise (s : State) (k : ErrorKind) : State := s.complete k.code

/-- InvalidLength (R266). -/
def State.raiseInvalidLength (s : State) : State := s.complete errInvalidLength

/-- IllegalCommand: Complete of an illegal word (R267, R95). -/
def State.raiseIllegalCommand (s : State) : State := s.complete errIllegalCommand

/-- Reset (R42, R43): every register at its reset value, the buffer as it was (R44), a pending command gone (R302). The
schedule and the host's record are no registers. -/
def State.hardReset (s : State) : State :=
  { s with val := 0, res := 0, len := 0, status := Status.reset, cur := 0 }

/-- Power-up: Reset, and every cell of the buffer gets an unspecified value (R301). -/
def State.powerUp (s : State) : State := (s.hardReset.setBuf []).nextPowerUp

/-! ### The host's transactions -/

/-- A host write has its effect when the block is not busy and is dropped while it is (R45). -/
def State.hostWrite (s t : State) : State := if s.status.busy then s else t

/-- The effect of each transaction of R60. A read changes nothing (R46) but the record of what the host has read. -/
def State.perform (s : State) : Transaction → State
  | .hwVal v => s.hostWrite (s.setVal v)
  | .hrVal => s.logRead (.val s.val)
  | .hrRes => s.logRead (.res s.res)
  | .hwLen n => s.hostWrite (s.setLen n)
  | .hrLen => s.logRead (.len s.len)
  | .hwBuf i b => s.hostWrite (s.writeBuf i b)
  | .hrBuf i => s.logRead (.buf i (s.readBuf i))
  | .hwCmd c => s.issue c
  | .hrStatus => s.logRead (.status s.status.word)
  | .hrCmd => s.logRead (.cmd 0)
  | .hwRes _ => s
  | .hwStatus _ => s

end Sys2Proof.Machine
end

