-- ==== Sys2Proof/Machine/Operands.lean ====
section
/-! DEFINITION. The operand forms of R93 (30_encoding.md): where a command's sources come from and where its results go. -/

namespace Sys2Proof.Machine

/-- The operand of the encoders: `VAL` (R93). -/
def State.valOperand (s : State) : Word := s.val

/-- The operand of the decoders: `BUF[0..LEN-1]`, where 1 <= LEN <= BUFLEN; `none` is the case of InvalidLength, found before
any cell is read (R181, R231, R266). -/
def State.seqOperand (s : State) : Option (List Byte) :=
  if s.len.toNat = 0 ∨ s.len.toNat > s.cfg.bufLen then none else some (s.readSeq s.len.toNat)

/-- The end of an encoder: the sequence to `BUF[0..n-1]`, its length to `LEN`, no error (R162, R212). The cells exist on every
instance that keeps R8; on another the machine stops (log 7). -/
def deliverSequence (s : State) (bs : List Byte) : Host.Outcome State Fault Refusal :=
  if bs.length ≤ s.cfg.bufLen then
    .next (((s.writeSeq bs).setLen (BitVec.ofNat 8 bs.length)).complete errNone)
  else .fault .noSuchCell

/-- The end of a decoder: on success `RES` and no error, otherwise the error alone (R181, R231, R262). -/
def State.deliverDecoded (s : State) : Decoded → State
  | .ok v => (s.setRes v).complete errNone
  | .err k => s.raise k

/-- A decoder on its operand. `InvalidLength` comes before all (R269); it is also the hardware's answer to the empty sequence,
on which the Layer 1 functions have no value (R188, R237). -/
def State.decodeWith (s : State) (f : List Byte → Option Decoded) : State :=
  match s.seqOperand.bind f with
  | none => s.raiseInvalidLength
  | some d => s.deliverDecoded d

/-- What a host that reports a failed decode has in hand: the whole input, still in the buffer, as a nibble string (R270, R10).
The text of the message is the host's. -/
def State.hexDump (s : State) : List Nibble := nibbles (s.readSeq s.len.toNat)

end Sys2Proof.Machine
end

