-- ==== Sys2Proof/Machine/Packed.lean ====
section
/-! DEFINITION. Packed decimal: the encoder (R211, R212; 43_packed_encode.md) and the decoder (R230, R231; 44_packed_decode.md). -/

namespace Sys2Proof.Machine

/-- The sign marker of a value; zero is non-negative (R134). -/
def packedSign (v : Word) : Nibble := if isNeg v then packedNegative else packedPositive

/-- One digit 0 in front of an even number of digits (R211). -/
def padOdd (ds : List Nat) : List Nat := if ds.length % 2 = 0 then 0 :: ds else ds

/-- `EncodePacked(v)` (R211). -/
def encodePacked (v : Word) : List Byte :=
  packNibbles ((padOdd (digits (mag v))).map digitNibble ++ [packedSign v])

/-- Phase 1 of R230: a digit position that holds no digit. Every nibble but the last is a digit position. -/
def packedViolation (bs : List Byte) : Option ErrorKind :=
  if (nibbles bs).dropLast.all isDigit then none else some .invalidDigitPart

/-- Phase 2 of R230: the sign in the last nibble, true for negative; `none` when it is neither marker. -/
def packedSignOf (last : Byte) : Option Bool :=
  if lo last = packedPositive then some false
  else if lo last = packedNegative then some true
  else none

/-- The digits of a packed sequence: every nibble but the last, in order (R230 phase 3). -/
def packedDigits (bs : List Byte) : List Nat := (nibbles bs).dropLast.map BitVec.toNat

/-- `DecodePacked(bs)` (R230); no value on the empty sequence (R237). -/
def decodePacked (bs : List Byte) : Option Decoded :=
  match bs.getLast? with
  | none => none
  | some last =>
      match packedViolation bs with
      | some k => some (.err k)
      | none =>
          match packedSignOf last with
          | none => some (.err .invalidSignPart)
          | some neg => some (toInt64 neg (digitsValue (packedDigits bs)))

/-- ENCP (R212). `NIB` is ignored (R92). -/
def execEncp (_nib : Nibble) (s : State) : Host.Outcome State Fault Refusal :=
  deliverSequence s (encodePacked s.valOperand)

/-- DECP (R231). `NIB` is ignored (R92). -/
def execDecp (_nib : Nibble) (s : State) : Host.Outcome State Fault Refusal :=
  .next (s.decodeWith decodePacked)

end Sys2Proof.Machine
end

