-- ==== Sys2Proof/Machine/Validator.lean ====
section
/-! DEFINITION. The digit validator as a command (R132, 40_common_numeric.md). -/

namespace Sys2Proof.Machine

/-- CHKD n (R132): `DV <- IsDigit(n)`. A non-digit is its answer, not an error. -/
def execChkd (nib : Nibble) (s : State) : Host.Outcome State Fault Refusal :=
  .next ((s.setStatus (s.status.withDv (isDigit nib))).complete errNone)

end Sys2Proof.Machine
end

