-- ==== Sys2Proof/Machine/Zoned.lean ====
section
/-! DEFINITION. Zoned decimal: the encoder (R161, R162; 41_zoned_encode.md) and the decoder (R180, R181; 42_zoned_decode.md). -/

namespace Sys2Proof.Machine

/-- The zoned bytes of a digit string under a sign marker: zone marker and digit, and in the last byte the sign (R161). -/
def zonedBytes (sign : Nibble) : List Nat → List Byte
  | [] => []
  | [d] => [byteOf sign (digitNibble d)]
  | d :: ds => byteOf zoneMarker (digitNibble d) :: zonedBytes sign ds

/-- The sign marker of a value; zero is non-negative (R134). -/
def zonedSign (v : Word) : Nibble := if isNeg v then zonedNegative else zonedPositive

/-- `EncodeZoned(v)` (R161). -/
def encodeZoned (v : Word) : List Byte := zonedBytes (zonedSign v) (digits (mag v))

/-- Phase 1 of R180: zone and digit checks byte by byte, the high nibble first; the sign position is skipped. The first
violation found, if any. -/
def zonedViolation : List Byte → Option ErrorKind
  | [] => none
  | [b] => if isDigit (lo b) then none else some .invalidDigitPart
  | b :: bs =>
      if hi b != zoneMarker then some .invalidZonePart
      else if !isDigit (lo b) then some .invalidDigitPart
      else zonedViolation bs

/-- Phase 2 of R180: the sign at the sign position, true for negative; `none` when it is neither marker. -/
def zonedSignOf (last : Byte) : Option Bool :=
  if hi last = zonedPositive then some false
  else if hi last = zonedNegative then some true
  else none

/-- The digits of a zoned sequence: the low nibbles in order (R180 phase 3). -/
def zonedDigits (bs : List Byte) : List Nat := bs.map fun b => (lo b).toNat

/-- `DecodeZoned(bs)` (R180); no value on the empty sequence (R188). -/
def decodeZoned (bs : List Byte) : Option Decoded :=
  match bs.getLast? with
  | none => none
  | some last =>
      match zonedViolation bs with
      | some k => some (.err k)
      | none =>
          match zonedSignOf last with
          | none => some (.err .invalidSignPart)
          | some neg => some (toInt64 neg (digitsValue (zonedDigits bs)))

/-- ENCZ (R162). `NIB` is ignored (R92). -/
def execEncz (_nib : Nibble) (s : State) : Host.Outcome State Fault Refusal :=
  deliverSequence s (encodeZoned s.valOperand)

/-- DECZ (R181). `NIB` is ignored (R92). -/
def execDecz (_nib : Nibble) (s : State) : Host.Outcome State Fault Refusal :=
  .next (s.decodeWith decodeZoned)

end Sys2Proof.Machine
end

