-- ==== Sys2Proof/Machine/Dispatch.lean ====
section
/-! DEFINITION. `exec i s` is the Complete step (R41, 10_state.md) of the command `i` in the state `s`: one arm for each
constructor of `Instr`. -/

namespace Sys2Proof.Machine

def exec (i : Instr) (s : State) : Host.Outcome State Fault Refusal :=
  match i with
  | .encz nib => Sys2Proof.Machine.execEncz nib s
  | .decz nib => Sys2Proof.Machine.execDecz nib s
  | .encp nib => Sys2Proof.Machine.execEncp nib s
  | .decp nib => Sys2Proof.Machine.execDecp nib s
  | .chkd nib => Sys2Proof.Machine.execChkd nib s

end Sys2Proof.Machine
end

