-- ==== Sys2Proof/Machine/Turns.lean ====
section
/-! DEFINITION. What each agent does when its turn comes (R35, R41, R60, R106), and the fetch of a command word from `CUR`. -/

namespace Sys2Proof.Machine

/-- The command word Complete performs: the block fetches nothing from memory, the word is in `CUR` (R24, R34, R75). -/
def State.commandWord (s : State) : Byte := s.cur

/-- Complete (R41): the command latched in `CUR`, or IllegalCommand when the word is illegal (R267). -/
def completeCommand (s : State) : Host.Outcome State Fault Refusal :=
  match decode s.commandWord with
  | .command i => exec i s
  | .illegal _ => .next s.raiseIllegalCommand

/-- The codec's turn: Complete, enabled if and only if BUSY (R41); otherwise the block is idle and all state persists (R277). -/
def codecTurn (s : State) : Host.Outcome State Fault Refusal :=
  if s.status.busy then completeCommand s else .next s

/-- The host's turn: one bus access, refused when it is not a transaction (R60, R62). -/
def hostTurn (a : BusAccess) (s : State) : Host.Outcome State Fault Refusal :=
  match a.transaction s.cfg.bufLen with
  | some t => .next (s.perform t)
  | none => .refused (.notATransaction a.offset)

/-- One poll of `wait` (R106): the host reads STATUS; the wait is over when DONE = 1, otherwise it goes on, and after the last
of its polls the codec gets a turn in between (LATENCY is open: log 3, log 13). -/
def waitTurn (polls : Nat) (s : State) : State :=
  let s' := s.perform .hrStatus
  if s.status.done then s'
  else match polls with
    | 0 => s'.setTurns (.codec :: .wait 0 :: s.turns)
    | k + 1 => s'.setTurns (.wait k :: s.turns)

/-- The turn of whoever is next, with the rest of the schedule already in the state. An empty schedule leaves the codec alone:
a pending command completes (R310). -/
def takeTurn (next : Option Turn) (s : State) : Host.Outcome State Fault Refusal :=
  match next with
  | none => codecTurn s
  | some .codec => codecTurn s
  | some (.host a) => hostTurn a s
  | some (.wait k) => .next (waitTurn k s)
  | some .reset => .next s.hardReset
  | some .powerUp => .next s.powerUp

/-- The state of a pending command word `c`: what Issue leaves (R40), with the codec to move next. -/
def State.withPending (s : State) (c : Byte) : State :=
  ((s.setCur c).setStatus Status.issued).setTurns (.codec :: s.turns)

end Sys2Proof.Machine
end

