-- ==== Sys2Proof/Machine/Step.lean ====
section
/-! DEFINITION. One step of the system: the next turn of the schedule (R35, R73). -/

namespace Sys2Proof.Machine

/-- One atomic step (R73): the first turn of the schedule is taken off it and performed. -/
def step (s : State) : Host.Outcome State Fault Refusal :=
  takeTurn s.turns.head? (s.setTurns s.turns.tail)

/-- `s` with the command word `w` pending: latched in `CUR`, BUSY, as Issue leaves it (R40), and the codec to move next, so that
the very next step is its Complete. A command word has 8 bits (R95; log 5, log 14). -/
def State.withFetchWord (s : State) (_nbits w : Nat) : State := s.withPending (BitVec.ofNat 8 w)

end Sys2Proof.Machine
end

