-- ==== Sys2Proof/Machine/HostScript.lean ====
section
/-! DEFINITION. The host script of R105 and its pseudo-instructions (R106, 30_encoding.md): each line as the turns it stands for. -/

namespace Sys2Proof.Machine

/-- A line of a host script (R105), or a pseudo-instruction (R106). -/
inductive ScriptLine where
  /-- `wr VAL, z`: a number, negative or not, that stands for `bits64(z)`; outside -(2^63) to 2^63 - 1, see log 17. -/
  | wrVal (z : Int)
  | rdVal
  | rdRes
  | wrLen (n : Byte)
  | rdLen
  | wrBuf (i : Nat) (b : Byte)
  | rdBuf (i : Nat)
  | rdStatus
  | encz
  | decz
  | encp
  | decp
  | chkd (n : Nibble)
  | cmd (c : Byte)
  /-- `wait`: poll until DONE (R106). -/
  | wait
  /-- `ld b0, b1, ...`: the cells from `BUF[0]` on, then `LEN` (R106). -/
  | ld (bs : List Byte)
  /-- `expect X = v`: an assertion of the script, not a transaction (R106). -/
  | expect (r : Reading)
  deriving DecidableEq, Repr

/-- The writes of `ld` to the cells from `i` on. -/
def loadCells : Nat → List Byte → List Transaction
  | _, [] => []
  | i, b :: bs => .hwBuf i b :: loadCells (i + 1) bs

/-- The transactions of a line, in order; `wait` and `expect` are no fixed list of transactions and give none here.
DESIGN CHOICE (log 17): `bits64` (R9) has a value only from -(2^63) to 2^63 - 1; for a number outside, the word written is the
number modulo 2^64. -/
def ScriptLine.transactions : ScriptLine → List Transaction
  | .wrVal z => [.hwVal (BitVec.ofInt 64 z)]
  | .rdVal => [.hrVal]
  | .rdRes => [.hrRes]
  | .wrLen n => [.hwLen n]
  | .rdLen => [.hrLen]
  | .wrBuf i b => [.hwBuf i b]
  | .rdBuf i => [.hrBuf i]
  | .rdStatus => [.hrStatus]
  | .encz => [.hwCmd (encode (.encz 0))]
  | .decz => [.hwCmd (encode (.decz 0))]
  | .encp => [.hwCmd (encode (.encp 0))]
  | .decp => [.hwCmd (encode (.decp 0))]
  | .chkd n => [.hwCmd (encode (.chkd n))]
  | .cmd c => [.hwCmd c]
  | .wait => []
  | .ld bs => loadCells 0 bs ++ [.hwLen (BitVec.ofNat 8 bs.length)]
  | .expect _ => []

/-- The turns of a line. `polls` is the schedule's choice for `wait`: how many polls pass before the codec moves. -/
def ScriptLine.turns (polls : Nat) : ScriptLine → List Turn
  | .wait => [.wait polls]
  | line => line.transactions.map fun t => .host t.access

/-- A script as a schedule, with the same choice of polls for each `wait`. DESIGN CHOICE (log 18): R310 allows Complete between any
two host transactions after Issue; here the codec moves only inside a `wait` (log 13) or when the schedule is used up (log 3). Other
placements are schedules with turns of the codec put between the lines' turns. -/
def assemble (polls : Nat) (script : List ScriptLine) : List Turn := script.flatMap (ScriptLine.turns polls)

/-- Whether two readings are of the same register or cell. -/
def Reading.sameSource : Reading → Reading → Bool
  | .val _, .val _ => true
  | .res _, .res _ => true
  | .len _, .len _ => true
  | .buf i _, .buf j _ => i == j
  | .status _, .status _ => true
  | .cmd _, .cmd _ => true
  | _, _ => false

/-- `expect X = v` holds: the last `rd X` returned `v` (R106). -/
def State.expectHolds (s : State) (r : Reading) : Bool := s.reads.find? (Reading.sameSource r) == some r

end Sys2Proof.Machine
end

