-- ==== Sys2Proof/WellFormed.lean ====
section
/-! DEFINITION. The static checks: an instance's parameter (R8), a command (R92), a host transaction (R60). -/

namespace Sys2Proof

/-- The constraint of R8: 20 <= BUFLEN <= 255. -/
def Config.wellFormed (c : Config) : Bool := decide (20 ≤ c.bufLen) && decide (c.bufLen ≤ 255)

/-- Every value of a command's nibble is legal: format `C` accepts every `NIB` (R92), and all 16 values of CHKD's are legal
(R132). The 4-bit type leaves nothing more to check. -/
def Instr.wellFormed : Instr → Bool
  | .encz _ => true
  | .decz _ => true
  | .encp _ => true
  | .decp _ => true
  | .chkd _ => true

/-- A buffer transaction names a cell that exists, 0 <= i < BUFLEN (R60); every other transaction is always a move. -/
def Machine.Transaction.wellFormed (bufLen : Nat) : Machine.Transaction → Bool
  | .hwBuf i _ => decide (i < bufLen)
  | .hrBuf i => decide (i < bufLen)
  | .hwVal _ => true
  | .hrVal => true
  | .hrRes => true
  | .hwLen _ => true
  | .hrLen => true
  | .hwCmd _ => true
  | .hrStatus => true
  | .hrCmd => true
  | .hwRes _ => true
  | .hwStatus _ => true

end Sys2Proof
end

