-- ==== Sys2Proof/Safety.lean ====
section
/-! DEFINITION. The terms claims are stated in: the invariants of R47 (10_state.md) and of the buffer, what a run may leave
alone, and which schedules the host may give. -/

namespace Sys2Proof.Safety

open Sys2Proof.Machine

/-- Whether a word is CHKD of a digit. -/
def isChkdOfDigit (c : Byte) : Bool :=
  match decode c with
  | .command (.chkd n) => isDigit n
  | _ => false

/-- The codes the command word `c` can end with (R261): those of its command, or 6 for an illegal word (R267). -/
def wordErrAllowed (c : Byte) (e : BitVec 3) : Bool :=
  match decode c with
  | .command i => errAllowed i e
  | .illegal _ => e == errIllegalCommand

/-- What holds in every reachable state: R47 (a) to (d), with the last completed command read from `CUR`, and the shape of the
instance and its buffer. R47 (e) is `Status.word`'s. -/
structure Inv (s : State) : Prop where
  /-- The instance keeps R8. -/
  cfgOk : s.cfg.wellFormed = true
  /-- The buffer is in canonical form and inside BUFLEN (R26; log 1). -/
  bufOk : Memory.wf s.cfg.bufLen s.buf = true
  /-- R47 (a) -/
  notBusyAndDone : (s.status.busy && s.status.done) = false
  /-- R47 (b) -/
  busyClear : s.status.busy = true → s.status.err = 0 ∧ s.status.dv = false
  /-- R47 (c) -/
  dvMeans : s.status.dv = true → s.status.done = true ∧ s.status.err = 0 ∧ isChkdOfDigit s.cur = true
  /-- An error code is the code of a completed command (R32). -/
  errDone : s.status.err ≠ 0 → s.status.done = true
  /-- The code is one that the completed command can end with (R261). -/
  errOfCommand : s.status.done = true → wordErrAllowed s.cur s.status.err = true
  /-- R47 (d) -/
  errNot7 : s.status.err ≠ 7

/-- R47 (f): after an encoder completed, with its word still in `CUR`, `LEN` is in the range of its outputs. The host can break it
by writing `LEN`. -/
def EncodedLength (s : State) : Prop :=
  s.status.done = true → s.status.err = 0 →
    (∀ n, decode s.cur = .command (.encz n) → 1 ≤ s.len.toNat ∧ s.len.toNat ≤ 19) ∧
    (∀ n, decode s.cur = .command (.encp n) → 1 ≤ s.len.toNat ∧ s.len.toNat ≤ 10)

/-- `BUSY = 0` (R313). -/
def Quiescent (s : State) : Prop := s.status.busy = false

/-- The codec moves next: its turn is first, or nothing else is scheduled. -/
def CodecNext (s : State) : Prop := s.turns = [] ∨ s.turns.head? = some .codec

/-- The state with the turn at hand taken off the schedule: what whoever moves sees. -/
def atTurn (s : State) : State := s.setTurns s.turns.tail

/-- The states agree on everything but the record of what the host has read. -/
def sameButReads (s t : State) : Prop :=
  t.cfg = s.cfg ∧ t.val = s.val ∧ t.res = s.res ∧ t.len = s.len ∧ t.buf = s.buf ∧ t.status = s.status ∧ t.cur = s.cur ∧
  t.powerUps = s.powerUps ∧ t.turns = s.turns

/-- The states agree on the block: every register and the buffer, whatever the schedule and the host's record. -/
def sameBlock (s t : State) : Prop :=
  t.cfg = s.cfg ∧ t.val = s.val ∧ t.res = s.res ∧ t.len = s.len ∧ t.buf = s.buf ∧ t.status = s.status ∧ t.cur = s.cur ∧
  t.powerUps = s.powerUps

/-- Whether a turn is a host access outside R60, which the model refuses (U11). -/
def refusedTurn (bufLen : Nat) : Turn → Bool
  | .host a => (a.transaction bufLen).isNone
  | .wait _ => false
  | .codec => false
  | .reset => false
  | .powerUp => false

/-- Whether a turn resets the block. -/
def isResetTurn : Turn → Bool
  | .reset => true
  | .powerUp => true
  | .host _ => false
  | .wait _ => false
  | .codec => false

/-- How many steps a turn can take before the codec has moved, or the turn is over. -/
def turnCost : Turn → Nat
  | .wait k => k + 2
  | .host _ => 1
  | .codec => 1
  | .reset => 1
  | .powerUp => 1

/-- The same for a whole schedule, and one more for the codec at its end. -/
def scheduleCost (ts : List Turn) : Nat := (ts.map turnCost).sum + 1

/-- The host reads STATUS, once. -/
def pollTurn : Turn := .host Transaction.hrStatus.access

/-- `RunCommand(c)`: Issue and Complete as one big step (R312). -/
def runCommand (s : State) (c : Byte) : Host.Outcome State Fault Refusal := codecTurn (s.issue c)

end Sys2Proof.Safety
end

