-- ==== Sys2Proof/Certificates/Slice0/Obligations.lean ====
section
/-! DEFINITION. The statements for the provers, from the numbered rules of spec/. -/

open Sys2Proof Sys2Proof.Machine Sys2Proof.Safety

/-! ### The command word and the address map -/

/-- R90 to R92, R94: every command's word decodes to it with its nibble at every value, and every word that decodes is the word
of what it decodes to. The last clause, for words of ENCZ, DECZ, ENCP and DECP that are not canonical (R92), rests on the model's
choice to keep their ignored nibble as an operand (log 16). -/
def Obligations.DecodeAndEncodeAgree : Prop :=
  (∀ i : Instr, i.wellFormed = true → decode (encode i) = .command i) ∧
  (∀ (c : Byte) (i : Instr), decode c = .command i → i.wellFormed = true ∧ encode i = c)

/-- R91, R92, and vectors H7, H8 of 95_test_vectors.md: words written out from the encodings decode to their commands, and
reserved words to the reason they are illegal. That 0xF1 keeps its ignored nibble is the model's choice (log 16). -/
def Obligations.DecodeOfWrittenWords : Prop :=
  decode 0b00000001 = .command (.encz 0) ∧ decode 0b11110001 = .command (.encz 15) ∧ decode 0b00000010 = .command (.decz 0) ∧
  decode 0b00000011 = .command (.encp 0) ∧ decode 0b00000100 = .command (.decp 0) ∧ decode 0b10010101 = .command (.chkd 9) ∧
  decode 0b10100101 = .command (.chkd 10) ∧ decode 0b00001001 = .illegal .reservedBitSet ∧
  decode 0b00000000 = .illegal (.reservedOp 0) ∧ decode 0b00000110 = .illegal (.reservedOp 6) ∧
  decode 0b00000111 = .illegal (.reservedOp 7)

/-- R94, with the nibble each command carries: for CHKD it is R90's and R92's; for the four commands of format `C`, which ignore it,
that it is carried at all is the model's choice (log 16). -/
def Obligations.DecodeByLowNibble : Prop :=
  (∀ c : Byte,
    (c &&& 0x0F = 0x01 → decode c = .command (.encz (c.extractLsb' 4 4))) ∧
    (c &&& 0x0F = 0x02 → decode c = .command (.decz (c.extractLsb' 4 4))) ∧
    (c &&& 0x0F = 0x03 → decode c = .command (.encp (c.extractLsb' 4 4))) ∧
    (c &&& 0x0F = 0x04 → decode c = .command (.decp (c.extractLsb' 4 4))) ∧
    (c &&& 0x0F = 0x05 → decode c = .command (.chkd (c.extractLsb' 4 4))) ∧
    ((c &&& 0x0F = 0x00 ∨ 0x06 ≤ (c &&& 0x0F).toNat) → ∃ e, decode c = .illegal e)) ∧
  ((List.range 256).filter fun n => (decode (BitVec.ofNat 8 n)).isCommand).length = 80

/-- R60, R62, R105: each transaction travels as one bus access at the offset and width of the address map, and the accesses that
are a transaction are exactly these. -/
def Obligations.AddressMapIsExact : Prop :=
  (∀ (v : Word) (n b c : Byte) (i : Nat),
    (Transaction.hwVal v).access = .wr64 0x00 v ∧ Transaction.hrVal.access = .rd64 0x00 ∧
    Transaction.hrRes.access = .rd64 0x08 ∧ (Transaction.hwRes v).access = .wr64 0x08 v ∧
    (Transaction.hwCmd c).access = .wr8 0x10 c ∧ Transaction.hrCmd.access = .rd8 0x10 ∧
    Transaction.hrStatus.access = .rd8 0x11 ∧ (Transaction.hwStatus b).access = .wr8 0x11 b ∧
    (Transaction.hwLen n).access = .wr8 0x12 n ∧ Transaction.hrLen.access = .rd8 0x12 ∧
    (Transaction.hwBuf i b).access = .wr8 (0x20 + i) b ∧ (Transaction.hrBuf i).access = .rd8 (0x20 + i)) ∧
  (∀ (bufLen : Nat) (t : Transaction), t.wellFormed bufLen = true → t.access.transaction bufLen = some t) ∧
  (∀ (bufLen : Nat) (a : BusAccess) (t : Transaction), a.transaction bufLen = some t →
    t.wellFormed bufLen = true ∧ t.access = a)

/-! ### The step -/

/-- R41 (Complete performs the word in `CUR`): when the codec moves next, the block is busy and the latched word decodes, the step
is `exec` of it on the state with the turn taken off the schedule. The schedule is the model's (log 3). -/
def Obligations.StepRunsLatchedCommand : Prop :=
  ∀ (s : State) (i : Instr), CodecNext s → s.status.busy = true → decode s.cur = .command i → step s = exec i (atTurn s)

/-- R41 (Complete is enabled only while busy), R277: between commands the block is idle and all state persists. -/
def Obligations.IdleBlockKeepsAllState : Prop :=
  ∀ s : State, CodecNext s → s.status.busy = false → step s = .next (atTurn s)

/-- R267, whole: the illegal words, what Complete of one does, and that no command ends with its code. `DV = 0` is what Issue
left (R47 b), so it is a premise here. -/
def Obligations.IllegalCommandChangesOnlyStatus : Prop :=
  (∀ s : State, CodecNext s → s.status.busy = true → s.status.dv = false →
    (s.cur.getLsbD 3 = true ∨ s.cur.extractLsb' 0 3 = 0 ∨ s.cur.extractLsb' 0 3 = 6 ∨ s.cur.extractLsb' 0 3 = 7) →
    step s = .next { atTurn s with status := { busy := false, done := true, dv := false, err := 6 } }) ∧
  (∀ (i : Instr) (s t : State), exec i s = .next t → t.status.err ≠ 6)

/-- R40, whole: the host's write of `c` to `CMD`. -/
def Obligations.IssueLatchesOrIsDropped : Prop :=
  ∀ (s : State) (c : Byte), s.turns.head? = some (.host (.wr8 0x10 c)) →
    (s.status.busy = false →
      step s = .next { atTurn s with cur := c, status := { busy := true, done := false, dv := false, err := 0 } }) ∧
    (s.status.busy = true → step s = .next (atTurn s))

/-- R45, whole: writes while busy are dropped; writes while not busy take effect at once; writes to `RES` and `STATUS` never have
an effect. The first clause is about every write of the register space. -/
def Obligations.HostWritesTakeEffectUnlessBusy : Prop :=
  (∀ (s : State) (a : BusAccess), s.turns.head? = some (.host a) → s.status.busy = true →
    ((∃ v, a = .wr64 0x00 v) ∨ (∃ n, a = .wr8 0x12 n) ∨ (∃ i b, i < s.cfg.bufLen ∧ a = .wr8 (0x20 + i) b) ∨
      (∃ c, a = .wr8 0x10 c)) →
    step s = .next (atTurn s)) ∧
  (∀ s : State, s.status.busy = false →
    (∀ v, s.turns.head? = some (.host (.wr64 0x00 v)) → step s = .next { atTurn s with val := v }) ∧
    (∀ n, s.turns.head? = some (.host (.wr8 0x12 n)) → step s = .next { atTurn s with len := n }) ∧
    (∀ i b, i < s.cfg.bufLen → s.turns.head? = some (.host (.wr8 (0x20 + i) b)) →
      ∃ m, step s = .next { atTurn s with buf := m } ∧
        ∀ j, ({ atTurn s with buf := m } : State).readBuf j = if j = i then b else s.readBuf j)) ∧
  (∀ s : State,
    (∀ v, s.turns.head? = some (.host (.wr64 0x08 v)) → step s = .next (atTurn s)) ∧
    (∀ b, s.turns.head? = some (.host (.wr8 0x11 b)) → step s = .next (atTurn s)))

/-- R46, R60, R27: a host read is always allowed, returns what it names and changes nothing of the block; while busy `STATUS` reads
as 0x01. That the host's record keeps the value is the model's (log 4). -/
def Obligations.HostReadsChangeNothing : Prop :=
  ∀ (s : State) (a : BusAccess) (r : Reading), s.turns.head? = some (.host a) →
    ((a = .rd64 0x00 ∧ r = .val s.val) ∨ (a = .rd64 0x08 ∧ r = .res s.res) ∨ (a = .rd8 0x12 ∧ r = .len s.len) ∨
      (∃ i, i < s.cfg.bufLen ∧ a = .rd8 (0x20 + i) ∧ r = .buf i (s.readBuf i)) ∨
      (a = .rd8 0x11 ∧ r = .status s.status.word) ∨ (a = .rd8 0x10 ∧ r = .cmd 0)) →
    (∃ t, step s = .next t ∧ sameButReads (atTurn s) t ∧ t.reads = r :: s.reads) ∧
    (Inv s → s.status.busy = true → s.status.word = 0x01)

/-- R60, R62 and U11 (treatment `refuse`): an access that is no transaction stops the model by name. -/
def Obligations.AccessOutsideTheMapIsRefused : Prop :=
  ∀ (s : State) (a : BusAccess), s.turns.head? = some (.host a) →
    ((∃ bits off, a = .otherWidth bits off) ∨
      (∃ off v, (off ≠ 0x00 ∧ off ≠ 0x08) ∧ (a = .wr64 off v ∨ a = .rd64 off)) ∨
      (∃ off b, (off < 0x10 ∨ (0x13 ≤ off ∧ off < 0x20) ∨ 0x20 + s.cfg.bufLen ≤ off) ∧ (a = .wr8 off b ∨ a = .rd8 off))) →
    step s = .refused (.notATransaction a.offset)

/-- R42 and R302, whole: Reset at any time puts every register at its reset value and keeps the buffer; a pending command is gone,
and the codec's next turn does nothing. -/
def Obligations.ResetAbandonsPendingCommand : Prop :=
  ∀ s : State, s.turns.head? = some .reset →
    ∃ t, step s = .next t ∧ t.val = 0 ∧ t.res = 0 ∧ t.len = 0 ∧
      t.status = { busy := false, done := false, dv := false, err := 0 } ∧ t.cur = 0 ∧ t.cfg = s.cfg ∧
      (∀ i, t.readBuf i = s.readBuf i) ∧ (CodecNext t → step t = .next (atTurn t))

/-- R301 (power-up is a Reset that additionally gives every cell an unspecified value): the new contents are the next draw. The
draw is a free value of Config, so nothing is said of its value (log 1). -/
def Obligations.PowerUpDrawsTheBufferAnew : Prop :=
  ∀ s : State, s.turns.head? = some .powerUp →
    ∃ t, step s = .next t ∧ t.val = 0 ∧ t.res = 0 ∧ t.len = 0 ∧
      t.status = { busy := false, done := false, dv := false, err := 0 } ∧ t.cur = 0 ∧ t.cfg = s.cfg ∧
      ∀ i, t.readBuf i = Config.bufPowerUp (s.powerUps + 1) i

/-- R43: the value of every piece of state after the first power-up of any instance, and after a later Reset, which leaves the
buffer unchanged (R44). Two clauses are the model's choice: the buffer at power-up, unspecified in the spec, is the free draw of
Config numbered by `powerUps` (log 1), and State.reset is the instance with the default BUFLEN of R8, 32 (log 2). -/
def Obligations.ResetValues : Prop :=
  (∀ cfg : Config, ∃ s, s = State.resetOf cfg ∧ s.val = 0x0000000000000000 ∧ s.res = 0x0000000000000000 ∧ s.len = 0x00 ∧
    s.status.busy = false ∧ s.status.done = false ∧ s.status.dv = false ∧ s.status.err = 0 ∧
    s.status.word.getLsbD 3 = false ∧ s.status.word.getLsbD 7 = false ∧ s.cur = 0x00 ∧ s.status.word = 0x00 ∧
    ∀ i, s.readBuf i = Config.bufPowerUp s.powerUps i) ∧
  State.reset = State.resetOf { bufLen := 32 } ∧
  (∀ s : State, s.hardReset.val = 0x0000000000000000 ∧ s.hardReset.res = 0x0000000000000000 ∧ s.hardReset.len = 0x00 ∧
    s.hardReset.status.busy = false ∧ s.hardReset.status.done = false ∧ s.hardReset.status.dv = false ∧
    s.hardReset.status.err = 0 ∧ s.hardReset.status.word.getLsbD 3 = false ∧ s.hardReset.status.word.getLsbD 7 = false ∧
    s.hardReset.cur = 0x00 ∧ s.hardReset.status.word = 0x00 ∧ ∀ i, s.hardReset.readBuf i = s.readBuf i)

/-- R106 (`wait`): one poll reads STATUS; the wait is over exactly when the value read has DONE = 1; otherwise it goes on. That the
codec moves after the last of a chosen number of polls is the model's schedule (log 13). -/
def Obligations.WaitPollsUntilDone : Prop :=
  ∀ (s : State) (k : Nat), s.turns.head? = some (.wait k) →
    ∃ t, step s = .next t ∧ sameBlock s t ∧ t.reads = .status s.status.word :: s.reads ∧
      (s.status.word.getLsbD 1 = true → t.turns = s.turns.tail) ∧
      (s.status.word.getLsbD 1 = false →
        t.turns = if k = 0 then .codec :: .wait 0 :: s.turns.tail else .wait (k - 1) :: s.turns.tail)

/-! ### Invariants and whole-machine rules -/

/-- R47, R43: the invariants hold after the first power-up of every instance that keeps R8. -/
def Obligations.InvariantsHoldAfterReset : Prop :=
  Inv State.reset ∧ ∀ cfg : Config, cfg.wellFormed = true → Inv (State.resetOf cfg)

/-- R47 (a) to (d), R26, R261: every step keeps the invariants. -/
def Obligations.StepKeepsInvariants : Prop :=
  ∀ s t : State, Inv s → step s = .next t → Inv t

/-- R47 (f): the length an encoder left stays in its range over every step in which the host does not write `LEN`. -/
def Obligations.EncodedLengthStaysInRange : Prop :=
  (∀ cfg : Config, EncodedLength (State.resetOf cfg)) ∧
  (∀ s t : State, EncodedLength s → (∀ n, s.turns.head? ≠ some (.host (.wr8 0x12 n))) → step s = .next t → EncodedLength t)

/-- R72, R260, R60: from a state that meets the invariants a step never faults, and it is refused only on a host access that is no
transaction. -/
def Obligations.StepStopsOnlyOnRefusedAccess : Prop :=
  ∀ s : State, Inv s →
    (∃ t, step s = .next t) ∨
    (∃ a, s.turns.head? = some (.host a) ∧ a.transaction s.cfg.bufLen = none ∧
      step s = .refused (.notATransaction a.offset))

/-- R21, R22, R34, R35: what alone changes `VAL`, `RES`, `CUR` and `BUFLEN`, over every step. -/
def Obligations.RegistersChangeOnlyAtTheirRules : Prop :=
  ∀ s t : State, step s = .next t →
    (t.val ≠ s.val → t.val = 0 ∧ (s.turns.head? = some .reset ∨ s.turns.head? = some .powerUp) ∨
      s.status.busy = false ∧ s.turns.head? = some (.host (.wr64 0x00 t.val))) ∧
    (t.res ≠ s.res → t.res = 0 ∧ (s.turns.head? = some .reset ∨ s.turns.head? = some .powerUp) ∨
      s.status.busy = true ∧ CodecNext s ∧ t.status.err = 0 ∧
        ∃ n, decode s.cur = .command (.decz n) ∨ decode s.cur = .command (.decp n)) ∧
    (t.cur ≠ s.cur → t.cur = 0 ∧ (s.turns.head? = some .reset ∨ s.turns.head? = some .powerUp) ∨
      s.status.busy = false ∧ s.turns.head? = some (.host (.wr8 0x10 t.cur))) ∧
    t.cfg = s.cfg

/-- R25, R26, R61: what alone changes `LEN` and the cells of `BUF`, over every step. -/
def Obligations.BufferChangesOnlyAtItsRules : Prop :=
  ∀ s t : State, step s = .next t →
    (t.len ≠ s.len → t.len = 0 ∧ (s.turns.head? = some .reset ∨ s.turns.head? = some .powerUp) ∨
      s.status.busy = false ∧ s.turns.head? = some (.host (.wr8 0x12 t.len)) ∨
      s.status.busy = true ∧ CodecNext s ∧ ∃ n, decode s.cur = .command (.encz n) ∨ decode s.cur = .command (.encp n)) ∧
    (∀ i, t.readBuf i ≠ s.readBuf i → s.turns.head? = some .powerUp ∨
      s.status.busy = false ∧ i < s.cfg.bufLen ∧ s.turns.head? = some (.host (.wr8 (0x20 + i) (t.readBuf i))) ∨
      s.status.busy = true ∧ CodecNext s ∧ i < t.len.toNat ∧
        ∃ n, decode s.cur = .command (.encz n) ∨ decode s.cur = .command (.encp n))

/-- R29, R30, R32 (and R46: reading does not clear it): `STATUS` changes only at an accepted Issue, at Complete and at Reset, and to
what these write. -/
def Obligations.StatusChangesOnlyAtTheHandshake : Prop :=
  ∀ s t : State, step s = .next t → t.status ≠ s.status →
    (s.status.busy = false ∧ (∃ c, s.turns.head? = some (.host (.wr8 0x10 c))) ∧
      t.status = { busy := true, done := false, dv := false, err := 0 }) ∨
    (s.status.busy = true ∧ CodecNext s ∧ t.status.busy = false ∧ t.status.done = true) ∨
    ((s.turns.head? = some .reset ∨ s.turns.head? = some .powerUp) ∧
      t.status = { busy := false, done := false, dv := false, err := 0 })

/-- R310: a pending command completes within as many steps as the schedule before it takes, if no Reset comes and the host makes no
access outside R60. That a finite schedule ends with the codec is the model's form of weak fairness (log 3, log 11). -/
def Obligations.PendingCommandCompletes : Prop :=
  ∀ s : State, Inv s → s.status.busy = true →
    (∀ tn ∈ s.turns, isResetTurn tn = false ∧ refusedTurn s.cfg.bufLen tn = false) →
    ∃ k t, k ≤ scheduleCost s.turns ∧ Sys2Proof.core.run k s = .next t ∧ t.status.busy = false ∧ t.status.done = true

/-- R312: for a host that only polls, Issue, any number of polls and Complete leave the block as the one big step does. -/
def Obligations.IssueThenCompleteIsOneStep : Prop :=
  ∀ (s : State) (c : Byte) (polls : Nat) (rest : List Turn), s.cfg.wellFormed = true → s.status.busy = false →
    s.turns = .host (.wr8 0x10 c) :: (List.replicate polls pollTurn ++ .codec :: rest) →
    ∃ t u, Sys2Proof.core.run (polls + 2) s = .next t ∧ runCommand (s.setTurns rest) c = .next u ∧
      sameBlock u t ∧ t.turns = rest ∧ t.reads = List.replicate polls (.status 0x01) ++ s.reads

/-! ### The commands -/

/-- R162 (pseudocode, flags and corner case d): ENCZ always completes, delivers `EncodeZoned(VAL)` to `BUF[0..n-1]` and `LEN`, with
no error, and leaves everything else alone. -/
def Obligations.EnczDeliversZonedBytes : Prop :=
  ∀ (s : State) (nib : Nibble), s.cfg.wellFormed = true →
    ∃ t, exec (.encz nib) s = .next t ∧
      1 ≤ (encodeZoned s.val).length ∧ (encodeZoned s.val).length ≤ 19 ∧
      t.len.toNat = (encodeZoned s.val).length ∧
      (∀ i, i < (encodeZoned s.val).length → (encodeZoned s.val)[i]? = some (t.readBuf i)) ∧
      (∀ i, (encodeZoned s.val).length ≤ i → t.readBuf i = s.readBuf i) ∧
      t.status = { busy := false, done := true, dv := s.status.dv, err := 0 } ∧
      t.val = s.val ∧ t.res = s.res ∧ t.cur = s.cur ∧ t.cfg = s.cfg ∧ t.powerUps = s.powerUps ∧ t.turns = s.turns ∧
      t.reads = s.reads

/-- R212 (pseudocode, flags and corner case e): ENCP always completes, delivers `EncodePacked(VAL)` to `BUF[0..n-1]` and `LEN`, with
no error, and leaves everything else alone. -/
def Obligations.EncpDeliversPackedBytes : Prop :=
  ∀ (s : State) (nib : Nibble), s.cfg.wellFormed = true →
    ∃ t, exec (.encp nib) s = .next t ∧
      1 ≤ (encodePacked s.val).length ∧ (encodePacked s.val).length ≤ 10 ∧
      t.len.toNat = (encodePacked s.val).length ∧
      (∀ i, i < (encodePacked s.val).length → (encodePacked s.val)[i]? = some (t.readBuf i)) ∧
      (∀ i, (encodePacked s.val).length ≤ i → t.readBuf i = s.readBuf i) ∧
      t.status = { busy := false, done := true, dv := s.status.dv, err := 0 } ∧
      t.val = s.val ∧ t.res = s.res ∧ t.cur = s.cur ∧ t.cfg = s.cfg ∧ t.powerUps = s.powerUps ∧ t.turns = s.turns ∧
      t.reads = s.reads

/-- R181 (pseudocode, flags and corner cases a, b): DECZ always completes; what it writes to `RES` and `ERR` in each case of
`DecodeZoned(BUF[0..LEN-1])` and of `LEN`; everything else is left alone. -/
def Obligations.DeczDeliversResultOrError : Prop :=
  ∀ (s : State) (nib : Nibble),
    ∃ t, exec (.decz nib) s = .next t ∧
      t.status.busy = false ∧ t.status.done = true ∧ t.status.dv = s.status.dv ∧
      ((s.len.toNat = 0 ∨ s.len.toNat > s.cfg.bufLen) → t.status.err = 5 ∧ t.res = s.res) ∧
      (s.len.toNat ≠ 0 → s.len.toNat ≤ s.cfg.bufLen →
        ((∃ v, decodeZoned (s.readSeq s.len.toNat) = some (.ok v) ∧ t.status.err = 0 ∧ t.res = v) ∨
         (decodeZoned (s.readSeq s.len.toNat) = some (.err .invalidZonePart) ∧ t.status.err = 1 ∧ t.res = s.res) ∨
         (decodeZoned (s.readSeq s.len.toNat) = some (.err .invalidSignPart) ∧ t.status.err = 2 ∧ t.res = s.res) ∨
         (decodeZoned (s.readSeq s.len.toNat) = some (.err .invalidDigitPart) ∧ t.status.err = 3 ∧ t.res = s.res) ∨
         (decodeZoned (s.readSeq s.len.toNat) = some (.err .overflow) ∧ t.status.err = 4 ∧ t.res = s.res))) ∧
      (∀ i, t.readBuf i = s.readBuf i) ∧ t.val = s.val ∧ t.len = s.len ∧ t.cur = s.cur ∧ t.cfg = s.cfg ∧
      t.powerUps = s.powerUps ∧ t.turns = s.turns ∧ t.reads = s.reads

/-- R231 (pseudocode, flags and corner cases a, b): DECP always completes; what it writes to `RES` and `ERR` in each case of
`DecodePacked(BUF[0..LEN-1])` and of `LEN`, never InvalidZonePart; everything else is left alone. -/
def Obligations.DecpDeliversResultOrError : Prop :=
  ∀ (s : State) (nib : Nibble),
    ∃ t, exec (.decp nib) s = .next t ∧
      t.status.busy = false ∧ t.status.done = true ∧ t.status.dv = s.status.dv ∧
      ((s.len.toNat = 0 ∨ s.len.toNat > s.cfg.bufLen) → t.status.err = 5 ∧ t.res = s.res) ∧
      (s.len.toNat ≠ 0 → s.len.toNat ≤ s.cfg.bufLen →
        ((∃ v, decodePacked (s.readSeq s.len.toNat) = some (.ok v) ∧ t.status.err = 0 ∧ t.res = v) ∨
         (decodePacked (s.readSeq s.len.toNat) = some (.err .invalidSignPart) ∧ t.status.err = 2 ∧ t.res = s.res) ∨
         (decodePacked (s.readSeq s.len.toNat) = some (.err .invalidDigitPart) ∧ t.status.err = 3 ∧ t.res = s.res) ∨
         (decodePacked (s.readSeq s.len.toNat) = some (.err .overflow) ∧ t.status.err = 4 ∧ t.res = s.res))) ∧
      (∀ i, t.readBuf i = s.readBuf i) ∧ t.val = s.val ∧ t.len = s.len ∧ t.cur = s.cur ∧ t.cfg = s.cfg ∧
      t.powerUps = s.powerUps ∧ t.turns = s.turns ∧ t.reads = s.reads

/-- R132 (pseudocode, flags, errors and corner cases): CHKD always completes without error, with `DV` the digit test of its nibble,
and changes nothing but `STATUS`. -/
def Obligations.ChkdTestsItsNibble : Prop :=
  ∀ (s : State) (n : Nibble),
    exec (.chkd n) s =
      .next { s with status := { busy := false, done := true, dv := decide (n.toNat ≤ 9), err := 0 } }

/-- R92: the commands of format `C` ignore `NIB`; all 16 values behave alike. -/
def Obligations.FormatCIgnoresNib : Prop :=
  ∀ (s : State) (m n : Nibble),
    exec (.encz m) s = exec (.encz n) s ∧ exec (.decz m) s = exec (.decz n) s ∧
    exec (.encp m) s = exec (.encp n) s ∧ exec (.decp m) s = exec (.decp n) s

/-- R261 (column "raised by"), R231: the codes each command can end with; none ends with 6 or 7. -/
def Obligations.ErrorCodesByCommand : Prop :=
  ∀ (s t : State) (n : Nibble),
    (exec (.encz n) s = .next t → t.status.err = 0) ∧ (exec (.encp n) s = .next t → t.status.err = 0) ∧
    (exec (.chkd n) s = .next t → t.status.err = 0) ∧ (exec (.decz n) s = .next t → t.status.err.toNat ≤ 5) ∧
    (exec (.decp n) s = .next t → t.status.err.toNat ≤ 5 ∧ t.status.err ≠ 1)

/-- R262: a command that ends with an error writes exactly `ERR`, `BUSY` and `DONE`; no register, no cell, no length. For every
command and every latched illegal word. -/
def Obligations.FailedCommandWritesOnlyStatus : Prop :=
  ∀ s t : State, codecTurn s = .next t → s.status.busy = true → t.status.err ≠ 0 →
    t = { s with status := { busy := false, done := true, dv := s.status.dv, err := t.status.err } }

/-- R266, whole: DECZ and DECP with `LEN = 0` or `LEN > BUFLEN` end with InvalidLength, whatever the buffer holds, and with no other
length do they. -/
def Obligations.InvalidLengthComesFirst : Prop :=
  (∀ (s : State) (n : Nibble) (m : Memory), (s.len.toNat = 0 ∨ s.len.toNat > s.cfg.bufLen) →
    exec (.decz n) (s.setBuf m) = .next ((s.setBuf m).setStatus { busy := false, done := true, dv := s.status.dv, err := 5 }) ∧
    exec (.decp n) (s.setBuf m) = .next ((s.setBuf m).setStatus { busy := false, done := true, dv := s.status.dv, err := 5 })) ∧
  (∀ (s t : State) (n : Nibble), (exec (.decz n) s = .next t ∨ exec (.decp n) s = .next t) → t.status.err = 5 →
    s.len.toNat = 0 ∨ s.len.toNat > s.cfg.bufLen)

/-- R36, R72: the outcome of a command depends on its operands alone: two states of one instance that agree on them end alike,
whatever `RES`, `STATUS`, the cells at or beyond `LEN` and everything else hold. -/
def Obligations.OutcomeDependsOnOperandsAlone : Prop :=
  ∀ (s s' : State) (m n : Nibble), s'.cfg = s.cfg → s.cfg.wellFormed = true →
    (s'.val = s.val →
      ∃ t t' u u', exec (.encz m) s = .next t ∧ exec (.encz n) s' = .next t' ∧ exec (.encp m) s = .next u ∧
        exec (.encp n) s' = .next u' ∧
        t'.len = t.len ∧ t'.status.err = t.status.err ∧ (∀ i, i < t.len.toNat → t'.readBuf i = t.readBuf i) ∧
        u'.len = u.len ∧ u'.status.err = u.status.err ∧ (∀ i, i < u.len.toNat → u'.readBuf i = u.readBuf i)) ∧
    (s'.len = s.len → (∀ i, i < s.len.toNat → s'.readBuf i = s.readBuf i) →
      ∃ t t' u u', exec (.decz m) s = .next t ∧ exec (.decz n) s' = .next t' ∧ exec (.decp m) s = .next u ∧
        exec (.decp n) s' = .next u' ∧
        t'.status.err = t.status.err ∧ (t.status.err = 0 → t'.res = t.res) ∧
        u'.status.err = u.status.err ∧ (u.status.err = 0 → u'.res = u.res)) ∧
    (∃ t t', exec (.chkd n) s = .next t ∧ exec (.chkd n) s' = .next t' ∧ t'.status.dv = t.status.dv ∧
      t'.status.err = t.status.err)

/-- R28, R33: the byte a read of `STATUS` returns. -/
def Obligations.StatusWordLayout : Prop :=
  ∀ st : Status,
    st.word.getLsbD 0 = st.busy ∧ st.word.getLsbD 1 = st.done ∧ st.word.getLsbD 2 = st.dv ∧ st.word.getLsbD 3 = false ∧
    st.word.extractLsb' 4 3 = st.err ∧ st.word.getLsbD 7 = false

/-! ### The arithmetic (Layer 1) -/

/-- R131, whole: the predicate and its gate equation. -/
def Obligations.IsDigitMeansAtMostNine : Prop :=
  ∀ n : Nibble, (isDigit n = true ↔ n.toNat ≤ 9) ∧
    isDigit n = !(n.getLsbD 3 && (n.getLsbD 2 || n.getLsbD 1))

/-- R133, whole: the magnitude as a natural number, its range, its value for -2^63, and its 64-bit hardware form. -/
def Obligations.MagnitudeIsExact : Prop :=
  (∀ v : Word, (0 ≤ v.toInt → (mag v : Int) = v.toInt) ∧ (v.toInt < 0 → (mag v : Int) = -v.toInt) ∧ mag v ≤ 2 ^ 63 ∧
    mag v = if v.getLsbD 63 = true then (~~~v + 1).toNat else v.toNat) ∧
  mag 0x8000000000000000 = 9223372036854775808

/-- R134: the sign, and the markers the encoders choose by it; zero is non-negative. -/
def Obligations.SignMarkersFollowTheSign : Prop :=
  (∀ v : Word, (isNeg v = true ↔ v.toInt < 0) ∧ isNeg v = v.getLsbD 63 ∧
    zonedSign v = (if v.toInt < 0 then 0x7 else 0x3) ∧ packedSign v = (if v.toInt < 0 then 0xD else 0xC)) ∧
  isNeg 0 = false

/-- R135, whole: the number of digits, each digit, and the bound for magnitudes. -/
def Obligations.DigitsAreTheDecimalDigits : Prop :=
  digits 0 = [0] ∧ numDigits 0 = 1 ∧
  (∀ m : Nat, 1 ≤ m → 1 ≤ numDigits m ∧ 10 ^ (numDigits m - 1) ≤ m ∧ m < 10 ^ numDigits m) ∧
  (∀ m i : Nat, i < numDigits m → (digits m)[i]? = some (m / 10 ^ (numDigits m - 1 - i) % 10)) ∧
  (∀ m : Nat, (digits m).length = numDigits m) ∧
  (∀ m : Nat, m ≤ 2 ^ 63 → 1 ≤ numDigits m ∧ numDigits m ≤ 19)

/-- R136, R139: the value of a digit list is its positional sum, and leading zeros do not change it. R136 is about non-empty lists of
digits; what is said here of the empty list and of entries above 9 is the model's choice (log 19). -/
def Obligations.DigitsValueIsPositional : Prop :=
  (∀ (ds : List Nat) (d : Nat), digitsValue (d :: ds) = d * 10 ^ ds.length + digitsValue ds) ∧ digitsValue [] = 0 ∧
  (∀ (k : Nat) (ds : List Nat), digitsValue (List.replicate k 0 ++ ds) = digitsValue ds)

/-- R137 and R138, whole: the asymmetric bounds, the results, and negative zero. -/
def Obligations.ToInt64Bounds : Prop :=
  (∀ m : Nat,
    (m > 2 ^ 63 → toInt64 true m = .err .overflow) ∧
    (m ≤ 2 ^ 63 → ∃ v, toInt64 true m = .ok v ∧ v.toInt = -(m : Int)) ∧
    (m > 2 ^ 63 - 1 → toInt64 false m = .err .overflow) ∧
    (m ≤ 2 ^ 63 - 1 → ∃ v, toInt64 false m = .ok v ∧ v.toInt = (m : Int))) ∧
  toInt64 true 0 = .ok 0x0000000000000000 ∧
  (∀ k : Nat, decodeZoned (List.replicate k 0x30 ++ [0x70]) = some (.ok 0) ∧
    decodePacked (List.replicate k 0x00 ++ [0x0D]) = some (.ok 0))

/-- R143, whole: the three laws. -/
def Obligations.DigitLaws : Prop :=
  (∀ m : Nat, digitsValue (digits m) = m) ∧
  (∀ ds : List Nat, (∀ d ∈ ds, d ≤ 9) → (ds = [0] ∨ ∃ d, ds.head? = some d ∧ d ≠ 0) → digits (digitsValue ds) = ds) ∧
  (∀ v : Word, toInt64 (isNeg v) (mag v) = .ok v ∧ (isNeg v = true → 1 ≤ mag v ∧ mag v ≤ 2 ^ 63) ∧
    (isNeg v = false → mag v ≤ 2 ^ 63 - 1))

/-- R141: the bounded-width accumulator decides the range and holds the value, and gives `ToInt64`. Its case of the empty list, which
has no value in R136, rests on the model's choice of 0 (log 19). -/
def Obligations.BoundedAccumulatorIsEquivalent : Prop :=
  ∀ ds : List Nat, (∀ d ∈ ds, d ≤ 9) →
    (digitsValue ds > 2 ^ 63 ↔ (accumulate ds).big = true) ∧
    ((accumulate ds).big = false → (accumulate ds).acc.toNat = digitsValue ds) ∧
    (∀ neg : Bool, (accumulate ds).toInt64 neg = toInt64 neg (digitsValue ds))

/-! ### Zoned decimal -/

/-- R161, whole: each byte of `EncodeZoned(v)` from the digits of the magnitude and the sign, and the length. -/
def Obligations.EncodeZonedBytes : Prop :=
  ∀ v : Word,
    (encodeZoned v).length = numDigits (mag v) ∧ 1 ≤ (encodeZoned v).length ∧ (encodeZoned v).length ≤ 19 ∧
    (∀ i, i + 1 < (encodeZoned v).length →
      ∃ d b, (digits (mag v))[i]? = some d ∧ (encodeZoned v)[i]? = some b ∧ b.toNat = 0x3 * 16 + d) ∧
    (∃ d b, (digits (mag v)).getLast? = some d ∧ (encodeZoned v).getLast? = some b ∧
      b.toNat = (if v.toInt < 0 then 0x7 else 0x3) * 16 + d)

/-- R163, whole: the properties of the output. -/
def Obligations.EncodeZonedShape : Prop :=
  ∀ v : Word,
    (∀ i b, i + 1 < (encodeZoned v).length → (encodeZoned v)[i]? = some b → 0x30 ≤ b.toNat ∧ b.toNat ≤ 0x39) ∧
    (∃ b, (encodeZoned v).getLast? = some b ∧ (0 ≤ v.toInt → 0x30 ≤ b.toNat ∧ b.toNat ≤ 0x39) ∧
      (v.toInt < 0 → 0x70 ≤ b.toNat ∧ b.toNat ≤ 0x79)) ∧
    (∃ b, (encodeZoned v).head? = some b ∧ (lo b ≠ 0 ∨ (encodeZoned v).length = 1)) ∧
    encodeZoned v ≠ [0x70]

/-- R164: the round trip, of the functions and of the commands (from any state, without moving data). -/
def Obligations.ZonedRoundTrip : Prop :=
  (∀ v : Word, decodeZoned (encodeZoned v) = some (.ok v)) ∧
  (∀ (s : State) (m n : Nibble), s.cfg.wellFormed = true →
    ∃ t u, exec (.encz m) s = .next t ∧ exec (.decz n) t = .next u ∧ u.res = s.val ∧ u.status.err = 0 ∧
      u.len.toNat = numDigits (mag s.val))

/-- R165, whole: which accepted sequences the encoder produces. -/
def Obligations.CanonicalZonedSequences : Prop :=
  ∀ (bs : List Byte) (v : Word), decodeZoned bs = some (.ok v) →
    (encodeZoned v = bs ↔
      (bs.length = 1 ∨ ∃ b, bs.head? = some b ∧ lo b ≠ 0) ∧
      ¬ ((∀ b ∈ bs, lo b = 0) ∧ ∃ b, bs.getLast? = some b ∧ hi b = 0x7))

/-- R189, whole: exactly when `DecodeZoned` succeeds, and with which value. -/
def Obligations.DecodeZonedSucceedsExactly : Prop :=
  ∀ (bs : List Byte) (v : Word), decodeZoned bs = some (.ok v) ↔
    (∀ i b, i + 1 < bs.length → bs[i]? = some b → 0x30 ≤ b.toNat ∧ b.toNat ≤ 0x39) ∧
    (∃ b, bs.getLast? = some b ∧
      ((0x30 ≤ b.toNat ∧ b.toNat ≤ 0x39 ∧ digitsValue (bs.map fun x => (lo x).toNat) ≤ 2 ^ 63 - 1 ∧
          v.toInt = (digitsValue (bs.map fun x => (lo x).toNat) : Int)) ∨
       (0x70 ≤ b.toNat ∧ b.toNat ≤ 0x79 ∧ digitsValue (bs.map fun x => (lo x).toNat) ≤ 2 ^ 63 ∧
          v.toInt = -(digitsValue (bs.map fun x => (lo x).toNat) : Int))))

/-- R185 (with R263, R264, R265, R274 for DECZ): which error a zoned input reports, the first violation in nibble order. -/
def Obligations.ZonedErrorOrder : Prop :=
  ∀ bs : List Byte, bs ≠ [] →
    (decodeZoned bs = some (.err .invalidZonePart) ↔
      ∃ i b, i + 1 < bs.length ∧ bs[i]? = some b ∧ hi b ≠ 0x3 ∧
        ∀ j c, j < i → bs[j]? = some c → hi c = 0x3 ∧ (lo c).toNat ≤ 9) ∧
    (decodeZoned bs = some (.err .invalidDigitPart) ↔
      ∃ i b, bs[i]? = some b ∧ 9 < (lo b).toNat ∧ (i + 1 < bs.length → hi b = 0x3) ∧
        ∀ j c, j < i → bs[j]? = some c → hi c = 0x3 ∧ (lo c).toNat ≤ 9) ∧
    (decodeZoned bs = some (.err .invalidSignPart) ↔
      (∀ i b, i + 1 < bs.length → bs[i]? = some b → hi b = 0x3) ∧ (∀ b ∈ bs, (lo b).toNat ≤ 9) ∧
      ∃ b, bs.getLast? = some b ∧ hi b ≠ 0x3 ∧ hi b ≠ 0x7) ∧
    (decodeZoned bs = some (.err .overflow) ↔
      (∀ i b, i + 1 < bs.length → bs[i]? = some b → hi b = 0x3) ∧ (∀ b ∈ bs, (lo b).toNat ≤ 9) ∧
      ∃ b, bs.getLast? = some b ∧
        (hi b = 0x3 ∧ 2 ^ 63 - 1 < digitsValue (bs.map fun x => (lo x).toNat) ∨
         hi b = 0x7 ∧ 2 ^ 63 < digitsValue (bs.map fun x => (lo x).toNat)))

/-- R183 and R184, whole: a reported kind is one the input has, an input with a violation is never accepted, and a zone or digit
violation comes before a sign violation. -/
def Obligations.ZonedErrorsAreViolations : Prop :=
  ∀ bs : List Byte,
    (decodeZoned bs = some (.err .invalidZonePart) → ∃ i b, i + 1 < bs.length ∧ bs[i]? = some b ∧ hi b ≠ 0x3) ∧
    (decodeZoned bs = some (.err .invalidSignPart) → ∃ b, bs.getLast? = some b ∧ hi b ≠ 0x3 ∧ hi b ≠ 0x7) ∧
    (decodeZoned bs = some (.err .invalidDigitPart) → ∃ b ∈ bs, 9 < (lo b).toNat) ∧
    (decodeZoned bs = some (.err .overflow) →
      (∀ i b, i + 1 < bs.length → bs[i]? = some b → hi b = 0x3) ∧ (∀ b ∈ bs, (lo b).toNat ≤ 9) ∧
      ∃ b, bs.getLast? = some b ∧
        (hi b = 0x3 ∧ 2 ^ 63 - 1 < digitsValue (bs.map fun x => (lo x).toNat) ∨
         hi b = 0x7 ∧ 2 ^ 63 < digitsValue (bs.map fun x => (lo x).toNat))) ∧
    (((∃ i b, i + 1 < bs.length ∧ bs[i]? = some b ∧ hi b ≠ 0x3) ∨ (∃ b ∈ bs, 9 < (lo b).toNat)) →
      decodeZoned bs = some (.err .invalidZonePart) ∨ decodeZoned bs = some (.err .invalidDigitPart)) ∧
    ((∃ b, bs.getLast? = some b ∧ hi b ≠ 0x3 ∧ hi b ≠ 0x7) → ∃ k, decodeZoned bs = some (.err k) ∧ k ≠ .overflow)

/-- R187, whole: the one-byte inputs. -/
def Obligations.OneByteZonedInputs : Prop :=
  ∀ b : Byte,
    ((∃ v, decodeZoned [b] = some (.ok v)) ↔ (0x30 ≤ b.toNat ∧ b.toNat ≤ 0x39) ∨ (0x70 ≤ b.toNat ∧ b.toNat ≤ 0x79)) ∧
    (∀ v, decodeZoned [b] = some (.ok v) →
      v.toInt = if b.toNat < 0x40 then (b.toNat : Int) - 0x30 else 0x70 - (b.toNat : Int)) ∧
    decodeZoned [b] ≠ some (.err .invalidZonePart)

/-! ### Packed decimal -/

/-- R211, whole: each byte of `EncodePacked(v)` from the padded digits and the sign, and the length. -/
def Obligations.EncodePackedBytes : Prop :=
  ∀ v : Word, ∃ ns : List Nat,
    ns = (if numDigits (mag v) % 2 = 0 then [0] else []) ++ digits (mag v) ++ [if v.toInt < 0 then 0xD else 0xC] ∧
    (encodePacked v).length = numDigits (mag v) / 2 + 1 ∧ 1 ≤ (encodePacked v).length ∧ (encodePacked v).length ≤ 10 ∧
    ns.length = 2 * (encodePacked v).length ∧
    (∀ j, j < (encodePacked v).length →
      ∃ h l b, ns[2 * j]? = some h ∧ ns[2 * j + 1]? = some l ∧ (encodePacked v)[j]? = some b ∧ b.toNat = h * 16 + l)

/-- R213, whole: the properties of the output. -/
def Obligations.EncodePackedShape : Prop :=
  ∀ v : Word,
    (∀ n ∈ (nibbles (encodePacked v)).dropLast, n.toNat ≤ 9) ∧
    (∃ b, (encodePacked v).getLast? = some b ∧ lo b = (if 0 ≤ v.toInt then 0xC else 0xD)) ∧
    (∃ b, (encodePacked v).head? = some b ∧ (2 ≤ (encodePacked v).length → b ≠ 0x00)) ∧
    encodePacked v ≠ [0x0D]

/-- R214: the round trip, of the functions and of the commands (from any state, without moving data). -/
def Obligations.PackedRoundTrip : Prop :=
  (∀ v : Word, decodePacked (encodePacked v) = some (.ok v)) ∧
  (∀ (s : State) (m n : Nibble), s.cfg.wellFormed = true →
    ∃ t u, exec (.encp m) s = .next t ∧ exec (.decp n) t = .next u ∧ u.res = s.val ∧ u.status.err = 0 ∧
      u.len.toNat = numDigits (mag s.val) / 2 + 1)

/-- R215, whole: which accepted sequences the encoder produces. -/
def Obligations.CanonicalPackedSequences : Prop :=
  ∀ (bs : List Byte) (v : Word), decodePacked bs = some (.ok v) →
    (encodePacked v = bs ↔
      (bs.length = 1 ∨ ∃ b, bs.head? = some b ∧ b ≠ 0x00) ∧
      ¬ ((∀ n ∈ (nibbles bs).dropLast, n = 0) ∧ ∃ b, bs.getLast? = some b ∧ lo b = 0xD))

/-- R235, whole: exactly when `DecodePacked` succeeds, and with which value. -/
def Obligations.DecodePackedSucceedsExactly : Prop :=
  ∀ (bs : List Byte) (v : Word), decodePacked bs = some (.ok v) ↔
    (∀ i b, i + 1 < bs.length → bs[i]? = some b → (hi b).toNat ≤ 9 ∧ (lo b).toNat ≤ 9) ∧
    (∃ b, bs.getLast? = some b ∧ (hi b).toNat ≤ 9 ∧
      ((lo b = 0xC ∧ digitsValue ((nibbles bs).dropLast.map BitVec.toNat) ≤ 2 ^ 63 - 1 ∧
          v.toInt = (digitsValue ((nibbles bs).dropLast.map BitVec.toNat) : Int)) ∨
       (lo b = 0xD ∧ digitsValue ((nibbles bs).dropLast.map BitVec.toNat) ≤ 2 ^ 63 ∧
          v.toInt = -(digitsValue ((nibbles bs).dropLast.map BitVec.toNat) : Int))))

/-- R233 (with R264, R265, R274 for DECP): which error a packed input reports; never InvalidZonePart. -/
def Obligations.PackedErrorOrder : Prop :=
  ∀ bs : List Byte, bs ≠ [] →
    (decodePacked bs ≠ some (.err .invalidZonePart)) ∧
    (decodePacked bs = some (.err .invalidDigitPart) ↔ ∃ n ∈ (nibbles bs).dropLast, 9 < n.toNat) ∧
    (decodePacked bs = some (.err .invalidSignPart) ↔
      (∀ n ∈ (nibbles bs).dropLast, n.toNat ≤ 9) ∧ ∃ b, bs.getLast? = some b ∧ lo b ≠ 0xC ∧ lo b ≠ 0xD) ∧
    (decodePacked bs = some (.err .overflow) ↔
      (∀ n ∈ (nibbles bs).dropLast, n.toNat ≤ 9) ∧ ∃ b, bs.getLast? = some b ∧
        (lo b = 0xC ∧ 2 ^ 63 - 1 < digitsValue ((nibbles bs).dropLast.map BitVec.toNat) ∨
         lo b = 0xD ∧ 2 ^ 63 < digitsValue ((nibbles bs).dropLast.map BitVec.toNat)))

/-- R139, R186, R236: leading zero digits, in any number, change nothing of what a decoder answers. -/
def Obligations.LeadingZerosChangeNothing : Prop :=
  ∀ (k : Nat) (bs : List Byte), bs ≠ [] →
    decodeZoned (List.replicate k 0x30 ++ bs) = decodeZoned bs ∧
    decodePacked (List.replicate k 0x00 ++ bs) = decodePacked bs
end

