-- ==== Sys2Proof/Laws/Bus.lean ====
section
/-! SUPPORT. The address map, one lemma for each location of R62. -/

namespace Sys2Proof.Machine

theorem bufCellAt_of_lt {bufLen i : Nat} (h : i < bufLen) : bufCellAt bufLen (0x20 + i) = some i := by
  have : offBuf ≤ 0x20 + i ∧ 0x20 + i < offBuf + bufLen := ⟨by simp [offBuf], by simp [offBuf, h]⟩
  rw [bufCellAt, if_pos this]
  simp [offBuf]

theorem bufCellAt_eq_some_iff (bufLen off i : Nat) : bufCellAt bufLen off = some i ↔ i < bufLen ∧ off = 0x20 + i := by
  constructor
  · intro h
    unfold bufCellAt at h
    split at h
    · rename_i hb
      simp only [offBuf] at hb
      simp only [offBuf, Option.some.injEq] at h
      omega
    · cases h
  · rintro ⟨h, rfl⟩
    exact bufCellAt_of_lt h

@[simp] theorem BusAccess.transaction_wr64_val (bufLen : Nat) (v : Word) :
    (BusAccess.wr64 0x00 v).transaction bufLen = some (.hwVal v) := rfl
@[simp] theorem BusAccess.transaction_wr64_res (bufLen : Nat) (v : Word) :
    (BusAccess.wr64 0x08 v).transaction bufLen = some (.hwRes v) := rfl
@[simp] theorem BusAccess.transaction_rd64_val (bufLen : Nat) :
    (BusAccess.rd64 0x00).transaction bufLen = some .hrVal := rfl
@[simp] theorem BusAccess.transaction_rd64_res (bufLen : Nat) :
    (BusAccess.rd64 0x08).transaction bufLen = some .hrRes := rfl
@[simp] theorem BusAccess.transaction_wr8_cmd (bufLen : Nat) (c : Byte) :
    (BusAccess.wr8 0x10 c).transaction bufLen = some (.hwCmd c) := rfl
@[simp] theorem BusAccess.transaction_wr8_status (bufLen : Nat) (b : Byte) :
    (BusAccess.wr8 0x11 b).transaction bufLen = some (.hwStatus b) := rfl
@[simp] theorem BusAccess.transaction_wr8_len (bufLen : Nat) (n : Byte) :
    (BusAccess.wr8 0x12 n).transaction bufLen = some (.hwLen n) := rfl
@[simp] theorem BusAccess.transaction_rd8_cmd (bufLen : Nat) :
    (BusAccess.rd8 0x10).transaction bufLen = some .hrCmd := rfl
@[simp] theorem BusAccess.transaction_rd8_status (bufLen : Nat) :
    (BusAccess.rd8 0x11).transaction bufLen = some .hrStatus := rfl
@[simp] theorem BusAccess.transaction_rd8_len (bufLen : Nat) :
    (BusAccess.rd8 0x12).transaction bufLen = some .hrLen := rfl

/-- An 8-bit write elsewhere is the write of a buffer cell, or nothing. -/
theorem BusAccess.transaction_wr8_other {bufLen off : Nat} (b : Byte) (h : off ≠ 0x10 ∧ off ≠ 0x11 ∧ off ≠ 0x12) :
    (BusAccess.wr8 off b).transaction bufLen = (bufCellAt bufLen off).map (fun i => .hwBuf i b) := by
  simp [BusAccess.transaction, offCmd, offStatus, offLen, h.1, h.2.1, h.2.2]

/-- An 8-bit read elsewhere is the read of a buffer cell, or nothing. -/
theorem BusAccess.transaction_rd8_other {bufLen off : Nat} (h : off ≠ 0x10 ∧ off ≠ 0x11 ∧ off ≠ 0x12) :
    (BusAccess.rd8 off).transaction bufLen = (bufCellAt bufLen off).map .hrBuf := by
  simp [BusAccess.transaction, offCmd, offStatus, offLen, h.1, h.2.1, h.2.2]

theorem BusAccess.transaction_wr8_buf {bufLen i : Nat} (b : Byte) (h : i < bufLen) :
    (BusAccess.wr8 (0x20 + i) b).transaction bufLen = some (.hwBuf i b) := by
  rw [BusAccess.transaction_wr8_other b ⟨by omega, by omega, by omega⟩, bufCellAt_of_lt h, Option.map_some]

theorem BusAccess.transaction_rd8_buf {bufLen i : Nat} (h : i < bufLen) :
    (BusAccess.rd8 (0x20 + i)).transaction bufLen = some (.hrBuf i) := by
  rw [BusAccess.transaction_rd8_other ⟨by omega, by omega, by omega⟩, bufCellAt_of_lt h, Option.map_some]

end Sys2Proof.Machine
end

