-- ==== Sys2Proof/Laws/State.lean ====
section
/-! SUPPORT. One lemma for each field under each update of State and Status, true by rfl. -/

namespace Sys2Proof.Machine

variable (s : State)

/-! setVal -/

@[simp] theorem State.setVal_cfg (v : Word) : (s.setVal v).cfg = s.cfg := rfl
@[simp] theorem State.setVal_val (v : Word) : (s.setVal v).val = v := rfl
@[simp] theorem State.setVal_res (v : Word) : (s.setVal v).res = s.res := rfl
@[simp] theorem State.setVal_len (v : Word) : (s.setVal v).len = s.len := rfl
@[simp] theorem State.setVal_buf (v : Word) : (s.setVal v).buf = s.buf := rfl
@[simp] theorem State.setVal_status (v : Word) : (s.setVal v).status = s.status := rfl
@[simp] theorem State.setVal_cur (v : Word) : (s.setVal v).cur = s.cur := rfl
@[simp] theorem State.setVal_powerUps (v : Word) : (s.setVal v).powerUps = s.powerUps := rfl
@[simp] theorem State.setVal_turns (v : Word) : (s.setVal v).turns = s.turns := rfl
@[simp] theorem State.setVal_reads (v : Word) : (s.setVal v).reads = s.reads := rfl

/-! setRes -/

@[simp] theorem State.setRes_cfg (v : Word) : (s.setRes v).cfg = s.cfg := rfl
@[simp] theorem State.setRes_val (v : Word) : (s.setRes v).val = s.val := rfl
@[simp] theorem State.setRes_res (v : Word) : (s.setRes v).res = v := rfl
@[simp] theorem State.setRes_len (v : Word) : (s.setRes v).len = s.len := rfl
@[simp] theorem State.setRes_buf (v : Word) : (s.setRes v).buf = s.buf := rfl
@[simp] theorem State.setRes_status (v : Word) : (s.setRes v).status = s.status := rfl
@[simp] theorem State.setRes_cur (v : Word) : (s.setRes v).cur = s.cur := rfl
@[simp] theorem State.setRes_powerUps (v : Word) : (s.setRes v).powerUps = s.powerUps := rfl
@[simp] theorem State.setRes_turns (v : Word) : (s.setRes v).turns = s.turns := rfl
@[simp] theorem State.setRes_reads (v : Word) : (s.setRes v).reads = s.reads := rfl

/-! setLen -/

@[simp] theorem State.setLen_cfg (n : Byte) : (s.setLen n).cfg = s.cfg := rfl
@[simp] theorem State.setLen_val (n : Byte) : (s.setLen n).val = s.val := rfl
@[simp] theorem State.setLen_res (n : Byte) : (s.setLen n).res = s.res := rfl
@[simp] theorem State.setLen_len (n : Byte) : (s.setLen n).len = n := rfl
@[simp] theorem State.setLen_buf (n : Byte) : (s.setLen n).buf = s.buf := rfl
@[simp] theorem State.setLen_status (n : Byte) : (s.setLen n).status = s.status := rfl
@[simp] theorem State.setLen_cur (n : Byte) : (s.setLen n).cur = s.cur := rfl
@[simp] theorem State.setLen_powerUps (n : Byte) : (s.setLen n).powerUps = s.powerUps := rfl
@[simp] theorem State.setLen_turns (n : Byte) : (s.setLen n).turns = s.turns := rfl
@[simp] theorem State.setLen_reads (n : Byte) : (s.setLen n).reads = s.reads := rfl

/-! setBuf -/

@[simp] theorem State.setBuf_cfg (m : Memory) : (s.setBuf m).cfg = s.cfg := rfl
@[simp] theorem State.setBuf_val (m : Memory) : (s.setBuf m).val = s.val := rfl
@[simp] theorem State.setBuf_res (m : Memory) : (s.setBuf m).res = s.res := rfl
@[simp] theorem State.setBuf_len (m : Memory) : (s.setBuf m).len = s.len := rfl
@[simp] theorem State.setBuf_buf (m : Memory) : (s.setBuf m).buf = m := rfl
@[simp] theorem State.setBuf_status (m : Memory) : (s.setBuf m).status = s.status := rfl
@[simp] theorem State.setBuf_cur (m : Memory) : (s.setBuf m).cur = s.cur := rfl
@[simp] theorem State.setBuf_powerUps (m : Memory) : (s.setBuf m).powerUps = s.powerUps := rfl
@[simp] theorem State.setBuf_turns (m : Memory) : (s.setBuf m).turns = s.turns := rfl
@[simp] theorem State.setBuf_reads (m : Memory) : (s.setBuf m).reads = s.reads := rfl

/-! setStatus -/

@[simp] theorem State.setStatus_cfg (st : Status) : (s.setStatus st).cfg = s.cfg := rfl
@[simp] theorem State.setStatus_val (st : Status) : (s.setStatus st).val = s.val := rfl
@[simp] theorem State.setStatus_res (st : Status) : (s.setStatus st).res = s.res := rfl
@[simp] theorem State.setStatus_len (st : Status) : (s.setStatus st).len = s.len := rfl
@[simp] theorem State.setStatus_buf (st : Status) : (s.setStatus st).buf = s.buf := rfl
@[simp] theorem State.setStatus_status (st : Status) : (s.setStatus st).status = st := rfl
@[simp] theorem State.setStatus_cur (st : Status) : (s.setStatus st).cur = s.cur := rfl
@[simp] theorem State.setStatus_powerUps (st : Status) : (s.setStatus st).powerUps = s.powerUps := rfl
@[simp] theorem State.setStatus_turns (st : Status) : (s.setStatus st).turns = s.turns := rfl
@[simp] theorem State.setStatus_reads (st : Status) : (s.setStatus st).reads = s.reads := rfl

/-! setCur -/

@[simp] theorem State.setCur_cfg (c : Byte) : (s.setCur c).cfg = s.cfg := rfl
@[simp] theorem State.setCur_val (c : Byte) : (s.setCur c).val = s.val := rfl
@[simp] theorem State.setCur_res (c : Byte) : (s.setCur c).res = s.res := rfl
@[simp] theorem State.setCur_len (c : Byte) : (s.setCur c).len = s.len := rfl
@[simp] theorem State.setCur_buf (c : Byte) : (s.setCur c).buf = s.buf := rfl
@[simp] theorem State.setCur_status (c : Byte) : (s.setCur c).status = s.status := rfl
@[simp] theorem State.setCur_cur (c : Byte) : (s.setCur c).cur = c := rfl
@[simp] theorem State.setCur_powerUps (c : Byte) : (s.setCur c).powerUps = s.powerUps := rfl
@[simp] theorem State.setCur_turns (c : Byte) : (s.setCur c).turns = s.turns := rfl
@[simp] theorem State.setCur_reads (c : Byte) : (s.setCur c).reads = s.reads := rfl

/-! setTurns -/

@[simp] theorem State.setTurns_cfg (ts : List Turn) : (s.setTurns ts).cfg = s.cfg := rfl
@[simp] theorem State.setTurns_val (ts : List Turn) : (s.setTurns ts).val = s.val := rfl
@[simp] theorem State.setTurns_res (ts : List Turn) : (s.setTurns ts).res = s.res := rfl
@[simp] theorem State.setTurns_len (ts : List Turn) : (s.setTurns ts).len = s.len := rfl
@[simp] theorem State.setTurns_buf (ts : List Turn) : (s.setTurns ts).buf = s.buf := rfl
@[simp] theorem State.setTurns_status (ts : List Turn) : (s.setTurns ts).status = s.status := rfl
@[simp] theorem State.setTurns_cur (ts : List Turn) : (s.setTurns ts).cur = s.cur := rfl
@[simp] theorem State.setTurns_powerUps (ts : List Turn) : (s.setTurns ts).powerUps = s.powerUps := rfl
@[simp] theorem State.setTurns_turns (ts : List Turn) : (s.setTurns ts).turns = ts := rfl
@[simp] theorem State.setTurns_reads (ts : List Turn) : (s.setTurns ts).reads = s.reads := rfl

/-! logRead -/

@[simp] theorem State.logRead_cfg (r : Reading) : (s.logRead r).cfg = s.cfg := rfl
@[simp] theorem State.logRead_val (r : Reading) : (s.logRead r).val = s.val := rfl
@[simp] theorem State.logRead_res (r : Reading) : (s.logRead r).res = s.res := rfl
@[simp] theorem State.logRead_len (r : Reading) : (s.logRead r).len = s.len := rfl
@[simp] theorem State.logRead_buf (r : Reading) : (s.logRead r).buf = s.buf := rfl
@[simp] theorem State.logRead_status (r : Reading) : (s.logRead r).status = s.status := rfl
@[simp] theorem State.logRead_cur (r : Reading) : (s.logRead r).cur = s.cur := rfl
@[simp] theorem State.logRead_powerUps (r : Reading) : (s.logRead r).powerUps = s.powerUps := rfl
@[simp] theorem State.logRead_turns (r : Reading) : (s.logRead r).turns = s.turns := rfl
@[simp] theorem State.logRead_reads (r : Reading) : (s.logRead r).reads = r :: s.reads := rfl

/-! nextPowerUp -/

@[simp] theorem State.nextPowerUp_cfg : s.nextPowerUp.cfg = s.cfg := rfl
@[simp] theorem State.nextPowerUp_val : s.nextPowerUp.val = s.val := rfl
@[simp] theorem State.nextPowerUp_res : s.nextPowerUp.res = s.res := rfl
@[simp] theorem State.nextPowerUp_len : s.nextPowerUp.len = s.len := rfl
@[simp] theorem State.nextPowerUp_buf : s.nextPowerUp.buf = s.buf := rfl
@[simp] theorem State.nextPowerUp_status : s.nextPowerUp.status = s.status := rfl
@[simp] theorem State.nextPowerUp_cur : s.nextPowerUp.cur = s.cur := rfl
@[simp] theorem State.nextPowerUp_powerUps : s.nextPowerUp.powerUps = s.powerUps + 1 := rfl
@[simp] theorem State.nextPowerUp_turns : s.nextPowerUp.turns = s.turns := rfl
@[simp] theorem State.nextPowerUp_reads : s.nextPowerUp.reads = s.reads := rfl

/-! complete -/

@[simp] theorem State.complete_cfg (e : BitVec 3) : (s.complete e).cfg = s.cfg := rfl
@[simp] theorem State.complete_val (e : BitVec 3) : (s.complete e).val = s.val := rfl
@[simp] theorem State.complete_res (e : BitVec 3) : (s.complete e).res = s.res := rfl
@[simp] theorem State.complete_len (e : BitVec 3) : (s.complete e).len = s.len := rfl
@[simp] theorem State.complete_buf (e : BitVec 3) : (s.complete e).buf = s.buf := rfl
@[simp] theorem State.complete_status (e : BitVec 3) : (s.complete e).status = s.status.completed e := rfl
@[simp] theorem State.complete_cur (e : BitVec 3) : (s.complete e).cur = s.cur := rfl
@[simp] theorem State.complete_powerUps (e : BitVec 3) : (s.complete e).powerUps = s.powerUps := rfl
@[simp] theorem State.complete_turns (e : BitVec 3) : (s.complete e).turns = s.turns := rfl
@[simp] theorem State.complete_reads (e : BitVec 3) : (s.complete e).reads = s.reads := rfl

/-! hardReset and powerUp -/

@[simp] theorem State.hardReset_cfg : s.hardReset.cfg = s.cfg := rfl
@[simp] theorem State.hardReset_val : s.hardReset.val = 0 := rfl
@[simp] theorem State.hardReset_res : s.hardReset.res = 0 := rfl
@[simp] theorem State.hardReset_len : s.hardReset.len = 0 := rfl
@[simp] theorem State.hardReset_buf : s.hardReset.buf = s.buf := rfl
@[simp] theorem State.hardReset_status : s.hardReset.status = Status.reset := rfl
@[simp] theorem State.hardReset_cur : s.hardReset.cur = 0 := rfl
@[simp] theorem State.hardReset_powerUps : s.hardReset.powerUps = s.powerUps := rfl
@[simp] theorem State.hardReset_turns : s.hardReset.turns = s.turns := rfl
@[simp] theorem State.hardReset_reads : s.hardReset.reads = s.reads := rfl
@[simp] theorem State.powerUp_cfg : s.powerUp.cfg = s.cfg := rfl
@[simp] theorem State.powerUp_val : s.powerUp.val = 0 := rfl
@[simp] theorem State.powerUp_res : s.powerUp.res = 0 := rfl
@[simp] theorem State.powerUp_len : s.powerUp.len = 0 := rfl
@[simp] theorem State.powerUp_buf : s.powerUp.buf = [] := rfl
@[simp] theorem State.powerUp_status : s.powerUp.status = Status.reset := rfl
@[simp] theorem State.powerUp_cur : s.powerUp.cur = 0 := rfl
@[simp] theorem State.powerUp_powerUps : s.powerUp.powerUps = s.powerUps + 1 := rfl
@[simp] theorem State.powerUp_turns : s.powerUp.turns = s.turns := rfl
@[simp] theorem State.powerUp_reads : s.powerUp.reads = s.reads := rfl

/-! writeBuf and writeSeq -/

@[simp] theorem State.writeBuf_cfg (i : Nat) (b : Byte) : (s.writeBuf i b).cfg = s.cfg := rfl
@[simp] theorem State.writeBuf_val (i : Nat) (b : Byte) : (s.writeBuf i b).val = s.val := rfl
@[simp] theorem State.writeBuf_res (i : Nat) (b : Byte) : (s.writeBuf i b).res = s.res := rfl
@[simp] theorem State.writeBuf_len (i : Nat) (b : Byte) : (s.writeBuf i b).len = s.len := rfl
@[simp] theorem State.writeBuf_buf (i : Nat) (b : Byte) : (s.writeBuf i b).buf = Memory.write s.buf i b := rfl
@[simp] theorem State.writeBuf_status (i : Nat) (b : Byte) : (s.writeBuf i b).status = s.status := rfl
@[simp] theorem State.writeBuf_cur (i : Nat) (b : Byte) : (s.writeBuf i b).cur = s.cur := rfl
@[simp] theorem State.writeBuf_powerUps (i : Nat) (b : Byte) : (s.writeBuf i b).powerUps = s.powerUps := rfl
@[simp] theorem State.writeBuf_turns (i : Nat) (b : Byte) : (s.writeBuf i b).turns = s.turns := rfl
@[simp] theorem State.writeBuf_reads (i : Nat) (b : Byte) : (s.writeBuf i b).reads = s.reads := rfl
@[simp] theorem State.writeSeq_cfg (bs : List Byte) : (s.writeSeq bs).cfg = s.cfg := rfl
@[simp] theorem State.writeSeq_val (bs : List Byte) : (s.writeSeq bs).val = s.val := rfl
@[simp] theorem State.writeSeq_res (bs : List Byte) : (s.writeSeq bs).res = s.res := rfl
@[simp] theorem State.writeSeq_len (bs : List Byte) : (s.writeSeq bs).len = s.len := rfl
@[simp] theorem State.writeSeq_buf (bs : List Byte) : (s.writeSeq bs).buf = Memory.writeSeq s.buf 0 bs := rfl
@[simp] theorem State.writeSeq_status (bs : List Byte) : (s.writeSeq bs).status = s.status := rfl
@[simp] theorem State.writeSeq_cur (bs : List Byte) : (s.writeSeq bs).cur = s.cur := rfl
@[simp] theorem State.writeSeq_powerUps (bs : List Byte) : (s.writeSeq bs).powerUps = s.powerUps := rfl
@[simp] theorem State.writeSeq_turns (bs : List Byte) : (s.writeSeq bs).turns = s.turns := rfl
@[simp] theorem State.writeSeq_reads (bs : List Byte) : (s.writeSeq bs).reads = s.reads := rfl

/-! Status -/

variable (st : Status)

@[simp] theorem Status.completed_busy (e : BitVec 3) : (st.completed e).busy = false := rfl
@[simp] theorem Status.completed_done (e : BitVec 3) : (st.completed e).done = true := rfl
@[simp] theorem Status.completed_dv (e : BitVec 3) : (st.completed e).dv = st.dv := rfl
@[simp] theorem Status.completed_err (e : BitVec 3) : (st.completed e).err = e := rfl
@[simp] theorem Status.withDv_busy (d : Bool) : (st.withDv d).busy = st.busy := rfl
@[simp] theorem Status.withDv_done (d : Bool) : (st.withDv d).done = st.done := rfl
@[simp] theorem Status.withDv_dv (d : Bool) : (st.withDv d).dv = d := rfl
@[simp] theorem Status.withDv_err (d : Bool) : (st.withDv d).err = st.err := rfl
@[simp] theorem Status.issued_busy : Status.issued.busy = true := rfl
@[simp] theorem Status.issued_done : Status.issued.done = false := rfl
@[simp] theorem Status.issued_dv : Status.issued.dv = false := rfl
@[simp] theorem Status.issued_err : Status.issued.err = 0 := rfl
@[simp] theorem Status.reset_busy : Status.reset.busy = false := rfl
@[simp] theorem Status.reset_done : Status.reset.done = false := rfl
@[simp] theorem Status.reset_dv : Status.reset.dv = false := rfl
@[simp] theorem Status.reset_err : Status.reset.err = 0 := rfl

/-! State after power-up -/

variable (cfg : Config)

@[simp] theorem State.resetOf_cfg : (State.resetOf cfg).cfg = cfg := rfl
@[simp] theorem State.resetOf_val : (State.resetOf cfg).val = 0 := rfl
@[simp] theorem State.resetOf_res : (State.resetOf cfg).res = 0 := rfl
@[simp] theorem State.resetOf_len : (State.resetOf cfg).len = 0 := rfl
@[simp] theorem State.resetOf_buf : (State.resetOf cfg).buf = [] := rfl
@[simp] theorem State.resetOf_status : (State.resetOf cfg).status = Status.reset := rfl
@[simp] theorem State.resetOf_cur : (State.resetOf cfg).cur = 0 := rfl
@[simp] theorem State.resetOf_powerUps : (State.resetOf cfg).powerUps = 0 := rfl
@[simp] theorem State.resetOf_turns : (State.resetOf cfg).turns = [] := rfl
@[simp] theorem State.resetOf_reads : (State.resetOf cfg).reads = [] := rfl

/-- The state after reset is the default instance's. -/
theorem State.reset_eq : State.reset = State.resetOf Config.default := rfl

end Sys2Proof.Machine
end

