-- ==== Sys2Proof/Laws/Memory.lean ====
section
/-! SUPPORT. The laws of the buffer: reading after writing, and the canonical form that every operation keeps. -/

namespace Sys2Proof.Machine

/-! ### Reading after writing -/

@[simp] theorem Memory.lookup_nil (i : Nat) : Memory.lookup [] i = none := rfl

theorem Memory.lookup_cons (j : Nat) (c : Byte) (m : Memory) (i : Nat) :
    Memory.lookup ((j, c) :: m) i = if j = i then some c else Memory.lookup m i := rfl

/-- A write is read back, and leaves every other cell alone. -/
theorem Memory.lookup_write (m : Memory) (i j : Nat) (b : Byte) :
    Memory.lookup (Memory.write m i b) j = if j = i then some b else Memory.lookup m j := by
  induction m with
  | nil => simp only [Memory.write, Memory.lookup_cons, Memory.lookup_nil, eq_comm]
  | cons cell m ih =>
    obtain ⟨k, c⟩ := cell
    simp only [Memory.write]
    split
    · simp only [Memory.lookup_cons, eq_comm (a := i)]
    split
    · rename_i _ hik
      subst hik
      simp only [Memory.lookup_cons, eq_comm (a := i)]
      split <;> rfl
    · rename_i hlt hne
      simp only [Memory.lookup_cons, ih]
      by_cases hkj : k = j
      · subst hkj
        simp [Ne.symm hne]
      · simp [hkj]

/-- Writing a sequence: its bytes are read back from the first cell on, the rest is left alone. -/
theorem Memory.lookup_writeSeq (bs : List Byte) (m : Memory) (i j : Nat) :
    Memory.lookup (Memory.writeSeq m i bs) j =
      if i ≤ j ∧ j < i + bs.length then bs[j - i]? else Memory.lookup m j := by
  induction bs generalizing m i with
  | nil =>
    have : ¬ (i ≤ j ∧ j < i + ([] : List Byte).length) := by simp
    rw [Memory.writeSeq, if_neg this]
  | cons b bs ih =>
    simp only [Memory.writeSeq, ih, Memory.lookup_write, List.length_cons]
    by_cases hj : j = i
    · subst hj
      have h1 : ¬ (j + 1 ≤ j ∧ j < j + 1 + bs.length) := by omega
      have h2 : j ≤ j ∧ j < j + (bs.length + 1) := by omega
      rw [if_neg h1, if_pos rfl, if_pos h2, Nat.sub_self, List.getElem?_cons_zero]
    · by_cases hin : i + 1 ≤ j ∧ j < i + 1 + bs.length
      · have h2 : i ≤ j ∧ j < i + (bs.length + 1) := by omega
        have h3 : j - i = (j - (i + 1)) + 1 := by omega
        rw [if_pos hin, if_pos h2, h3, List.getElem?_cons_succ]
      · have h2 : ¬ (i ≤ j ∧ j < i + (bs.length + 1)) := by omega
        rw [if_neg hin, if_neg h2, if_neg hj]

/-- `BUF[i] <- b` seen by every later read (R73). -/
theorem State.readBuf_writeBuf (s : State) (i j : Nat) (b : Byte) :
    (s.writeBuf i b).readBuf j = if j = i then b else s.readBuf j := by
  simp only [State.readBuf, State.writeBuf_buf, Memory.lookup_write, State.unlisted, State.writeBuf_powerUps]
  by_cases h : j = i <;> simp [h]

/-- A written sequence is read back from its cells. -/
theorem State.readBuf_writeSeq_inside (s : State) (bs : List Byte) (j : Nat) (h : j < bs.length) :
    (s.writeSeq bs).readBuf j = bs[j] := by
  simp [State.readBuf, Memory.lookup_writeSeq, h]

/-- A written sequence leaves every cell behind it alone. -/
theorem State.readBuf_writeSeq_outside (s : State) (bs : List Byte) (j : Nat) (h : bs.length ≤ j) :
    (s.writeSeq bs).readBuf j = s.readBuf j := by
  have h' : ¬ j < bs.length := by omega
  simp [State.readBuf, Memory.lookup_writeSeq, h', State.unlisted]

/-- What a cell reads as depends on the written cells and the power-up alone. -/
theorem State.readBuf_congr {s t : State} (hb : t.buf = s.buf) (hp : t.powerUps = s.powerUps) (i : Nat) :
    t.readBuf i = s.readBuf i := by
  simp only [State.readBuf, State.unlisted, hb, hp]

@[simp] theorem State.readSeq_length (s : State) (n : Nat) : (s.readSeq n).length = n := by
  simp [State.readSeq]

theorem State.readSeq_getElem? (s : State) (n i : Nat) (h : i < n) : (s.readSeq n)[i]? = some (s.readBuf i) := by
  simp [State.readSeq, h]

/-- Two states whose first `n` cells read alike give the same sequence. -/
theorem State.readSeq_congr {s t : State} {n : Nat} (h : ∀ i, i < n → t.readBuf i = s.readBuf i) :
    t.readSeq n = s.readSeq n :=
  List.map_congr_left fun i hi => h i (List.mem_range.mp hi)

/-- Reading back a sequence just written. -/
theorem State.readSeq_writeSeq (s : State) (bs : List Byte) : (s.writeSeq bs).readSeq bs.length = bs := by
  apply List.ext_getElem
  · simp
  · intro i h1 h2
    simp [State.readSeq, State.readBuf_writeSeq_inside s bs i h2]

/-! ### The canonical form -/

/-- The canonical form from `lo` on holds from any lower bound. -/
theorem Memory.wfFrom_mono {size lo lo' : Nat} {m : Memory} (h : Memory.wfFrom size lo m = true) (hle : lo' ≤ lo) :
    Memory.wfFrom size lo' m = true := by
  cases m with
  | nil => rfl
  | cons cell m =>
    simp only [Memory.wfFrom, Bool.and_eq_true, decide_eq_true_eq] at h ⊢
    exact ⟨⟨Nat.le_trans hle h.1.1, h.1.2⟩, h.2⟩

theorem Memory.wfFrom_write {size lo i : Nat} (b : Byte) (m : Memory) (hlo : lo ≤ i) (hi : i < size)
    (h : Memory.wfFrom size lo m = true) : Memory.wfFrom size lo (Memory.write m i b) = true := by
  induction m generalizing lo with
  | nil => simp [Memory.write, Memory.wfFrom, hlo, hi]
  | cons cell m ih =>
    obtain ⟨k, c⟩ := cell
    simp only [Memory.wfFrom, Bool.and_eq_true, decide_eq_true_eq] at h
    simp only [Memory.write]
    split
    · rename_i hik
      simp only [Memory.wfFrom, Bool.and_eq_true, decide_eq_true_eq]
      exact ⟨⟨hlo, hi⟩, ⟨by omega, h.1.2⟩, h.2⟩
    split
    · rename_i _ hik
      subst hik
      simp only [Memory.wfFrom, Bool.and_eq_true, decide_eq_true_eq]
      exact ⟨⟨hlo, hi⟩, h.2⟩
    · simp only [Memory.wfFrom, Bool.and_eq_true, decide_eq_true_eq]
      exact ⟨h.1, ih (by omega) h.2⟩

/-- A write to a cell that exists keeps the canonical form. -/
theorem Memory.wf_write {size i : Nat} (b : Byte) (m : Memory) (hi : i < size) (h : Memory.wf size m = true) :
    Memory.wf size (Memory.write m i b) = true :=
  Memory.wfFrom_write b m (Nat.zero_le i) hi h

/-- Writing a sequence inside the buffer keeps the canonical form. -/
theorem Memory.wf_writeSeq {size : Nat} (bs : List Byte) (m : Memory) (i : Nat) (hi : i + bs.length ≤ size)
    (h : Memory.wf size m = true) : Memory.wf size (Memory.writeSeq m i bs) = true := by
  induction bs generalizing m i with
  | nil => exact h
  | cons b bs ih =>
    simp only [List.length_cons] at hi
    exact ih (Memory.write m i b) (i + 1) (by omega) (Memory.wf_write b m (by omega) h)

/-- The memory after power-up is in canonical form. -/
@[simp] theorem Memory.wf_nil (size : Nat) : Memory.wf size [] = true := rfl

theorem Memory.wf_reset : Memory.wf State.reset.cfg.bufLen State.reset.buf = true := rfl

/-- In canonical form the first index bounds the rest: no cell below it is listed. -/
theorem Memory.lookup_of_wfFrom {size lo i : Nat} {m : Memory} (h : Memory.wfFrom size lo m = true) (hi : i < lo) :
    Memory.lookup m i = none := by
  induction m generalizing lo with
  | nil => rfl
  | cons cell m ih =>
    obtain ⟨k, c⟩ := cell
    simp only [Memory.wfFrom, Bool.and_eq_true, decide_eq_true_eq] at h
    have hk : ¬ k = i := by omega
    simp only [Memory.lookup_cons, hk, if_false]
    exact ih h.2 (by omega)

/-- Canonical memories with the same written cells are the same data. -/
theorem Memory.ext_of_wfFrom {size lo lo' : Nat} {m m' : Memory} (h : Memory.wfFrom size lo m = true)
    (h' : Memory.wfFrom size lo' m' = true) (heq : ∀ i, Memory.lookup m i = Memory.lookup m' i) : m = m' := by
  induction m generalizing m' lo lo' with
  | nil =>
    cases m' with
    | nil => rfl
    | cons cell m' =>
      obtain ⟨k', c'⟩ := cell
      have := heq k'
      simp [Memory.lookup_cons] at this
  | cons cell m ih =>
    obtain ⟨k, c⟩ := cell
    cases m' with
    | nil =>
      have := heq k
      simp [Memory.lookup_cons] at this
    | cons cell' m' =>
      obtain ⟨k', c'⟩ := cell'
      simp only [Memory.wfFrom, Bool.and_eq_true, decide_eq_true_eq] at h h'
      have hk : k = k' := by
        rcases Nat.lt_trichotomy k k' with hlt | heq' | hlt
        · have e := heq k
          have hne : ¬ k' = k := by omega
          rw [Memory.lookup_cons, Memory.lookup_cons, if_pos rfl, if_neg hne,
            Memory.lookup_of_wfFrom h'.2 (by omega)] at e
          cases e
        · exact heq'
        · have e := heq k'
          have hne : ¬ k = k' := by omega
          rw [Memory.lookup_cons, Memory.lookup_cons, if_pos rfl, if_neg hne,
            Memory.lookup_of_wfFrom h.2 (by omega)] at e
          cases e
      subst hk
      have hc := heq k
      simp only [Memory.lookup_cons, if_true, Option.some.injEq] at hc
      subst hc
      have : m = m' := ih h.2 h'.2 fun i => by
        have e := heq i
        simp only [Memory.lookup_cons] at e
        by_cases hki : k = i
        · subst hki
          rw [Memory.lookup_of_wfFrom h.2 (by omega), Memory.lookup_of_wfFrom h'.2 (by omega)]
        · simpa [hki] using e
      rw [this]

end Sys2Proof.Machine
end

