-- ==== Sys2Proof/Laws/Nibbles.lean ====
section
/-! SUPPORT. Taking a byte apart and putting it together. -/

namespace Sys2Proof.Machine

@[simp] theorem hi_byteOf (h l : Nibble) : hi (byteOf h l) = h := by
  revert h l
  decide

@[simp] theorem lo_byteOf (h l : Nibble) : lo (byteOf h l) = l := by
  revert h l
  decide

/-- `byte(h, l) = h * 16 + l` (R9). -/
theorem byteOf_toNat (h l : Nibble) : (byteOf h l).toNat = h.toNat * 16 + l.toNat := by
  revert h l
  decide

@[simp] theorem byteOf_hi_lo (b : Byte) : byteOf (hi b) (lo b) = b := by
  revert b
  decide

theorem hi_toNat (b : Byte) : (hi b).toNat = b.toNat / 16 := by
  revert b
  decide

theorem lo_toNat (b : Byte) : (lo b).toNat = b.toNat % 16 := by
  revert b
  decide

@[simp] theorem nibbles_nil : nibbles [] = [] := rfl
@[simp] theorem nibbles_cons (b : Byte) (bs : List Byte) : nibbles (b :: bs) = hi b :: lo b :: nibbles bs := rfl

theorem nibbles_append (as bs : List Byte) : nibbles (as ++ bs) = nibbles as ++ nibbles bs := by
  induction as with
  | nil => rfl
  | cons a as ih => simp [ih]

/-- The nibble string is twice as long (R10). -/
theorem nibbles_length (bs : List Byte) : (nibbles bs).length = 2 * bs.length := by
  induction bs with
  | nil => rfl
  | cons b bs ih =>
    simp only [nibbles_cons, List.length_cons, ih]
    omega

@[simp] theorem packNibbles_cons (h l : Nibble) (ns : List Nibble) :
    packNibbles (h :: l :: ns) = byteOf h l :: packNibbles ns := rfl

/-- Packing undoes the nibble string of a byte sequence. -/
@[simp] theorem packNibbles_nibbles (bs : List Byte) : packNibbles (nibbles bs) = bs := by
  induction bs with
  | nil => rfl
  | cons b bs ih => simp [ih]

/-- The nibble string of a packed string of even length is that string. -/
theorem nibbles_packNibbles : ∀ (ns : List Nibble), ns.length % 2 = 0 → nibbles (packNibbles ns) = ns
  | [], _ => rfl
  | [_], h => by simp at h
  | a :: b :: ns, h => by
    have : ns.length % 2 = 0 := by
      simp only [List.length_cons] at h
      omega
    simp [nibbles_packNibbles ns this]

theorem packNibbles_length : ∀ (ns : List Nibble), (packNibbles ns).length = ns.length / 2
  | [] => rfl
  | [_] => by simp [packNibbles]
  | a :: b :: ns => by
    simp only [packNibbles_cons, List.length_cons, packNibbles_length ns]
    omega

end Sys2Proof.Machine
end

