-- ==== Sys2Proof/Laws/Numeric.lean ====
section
/-! SUPPORT. The small lemmas of the arithmetic: how `digits`, `digitsValue` and the accumulator unfold by one digit. -/

namespace Sys2Proof.Machine

/-! ### Digits -/

/-- What was collected before stays behind. -/
theorem digitsOnto_append (fuel m : Nat) (acc : List Nat) : digitsOnto fuel m acc = digitsOnto fuel m [] ++ acc := by
  induction fuel generalizing m acc with
  | zero => rfl
  | succ fuel ih =>
    simp only [digitsOnto]
    split
    · rfl
    · rw [ih (m / 10) (m % 10 :: acc), ih (m / 10) [m % 10]]
      simp

/-- Enough fuel is enough: the result does not depend on it. -/
theorem digitsOnto_fuel {f g m : Nat} (hf : m < 2 ^ (f + 1)) (hg : m < 2 ^ (g + 1)) (acc : List Nat) :
    digitsOnto (f + 1) m acc = digitsOnto (g + 1) m acc := by
  induction f generalizing g m acc with
  | zero =>
    have : m < 10 := by omega
    simp [digitsOnto, this]
  | succ f ih =>
    cases g with
    | zero =>
      have : m < 10 := by omega
      simp [digitsOnto, this]
    | succ g =>
      rw [digitsOnto, digitsOnto.eq_2 m acc (g + 1)]
      split
      · rfl
      · exact ih (by rw [Nat.pow_succ] at hf; omega) (by rw [Nat.pow_succ] at hg; omega) _

/-- One digit: the number itself (R135). -/
theorem digits_of_lt_ten {m : Nat} (h : m < 10) : digits m = [m] := by
  simp [digits, digitsOnto, h]

/-- More digits: those of the quotient by ten, then the remainder (R135). -/
theorem digits_of_ten_le {m : Nat} (h : 10 ≤ m) : digits m = digits (m / 10) ++ [m % 10] := by
  have hm : m ≠ 0 := by omega
  have hq : m / 10 ≠ 0 := by omega
  have h1 : m < 2 ^ (m.log2 + 1) := Nat.lt_log2_self
  have h2 : m / 10 < 2 ^ ((m / 10).log2 + 1) := Nat.lt_log2_self
  have h3 : ¬ m < 10 := by omega
  have hpos : m.log2 = (m.log2 - 1) + 1 := by
    have : m.log2 ≠ 0 := by
      intro h0
      rw [h0] at h1
      omega
    omega
  have h4 : m / 10 < 2 ^ (m.log2 - 1 + 1) := by
    rw [← hpos]
    rw [Nat.pow_succ] at h1
    omega
  unfold digits
  rw [digitsOnto.eq_2, if_neg h3, digitsOnto_append, hpos, digitsOnto_fuel h4 h2]

theorem digits_ne_nil (m : Nat) : digits m ≠ [] := by
  by_cases h : m < 10
  · simp [digits_of_lt_ten h]
  · simp [digits_of_ten_le (Nat.le_of_not_lt h)]

theorem digits_le_nine (m : Nat) : ∀ d ∈ digits m, d ≤ 9 := by
  induction m using Nat.strongRecOn with
  | ind m ih =>
    by_cases h : m < 10
    · simp only [digits_of_lt_ten h, List.mem_singleton]
      omega
    · intro d hd
      rw [digits_of_ten_le (Nat.le_of_not_lt h), List.mem_append, List.mem_singleton] at hd
      rcases hd with hd | hd
      · exact ih (m / 10) (by omega) d hd
      · omega

theorem numDigits_of_lt_ten {m : Nat} (h : m < 10) : numDigits m = 1 := by
  simp [numDigits, digits_of_lt_ten h]

theorem numDigits_of_ten_le {m : Nat} (h : 10 ≤ m) : numDigits m = numDigits (m / 10) + 1 := by
  simp [numDigits, digits_of_ten_le h]

/-! ### The value of a digit list -/

@[simp] theorem digitsValue_nil : digitsValue [] = 0 := rfl

/-- A digit at the end is the new least significant one (R136). -/
theorem digitsValue_snoc (ds : List Nat) (d : Nat) : digitsValue (ds ++ [d]) = digitsValue ds * 10 + d := by
  simp [digitsValue]

/-- The accumulator after one more digit (R141). -/
theorem accumulate_snoc (ds : List Nat) (d : Nat) : accumulate (ds ++ [d]) = (accumulate ds).push d := by
  simp [accumulate]

/-! ### Nibbles that hold digits -/

theorem isDigit_iff (n : Nibble) : isDigit n = true ↔ n.toNat ≤ 9 := by simp [isDigit]

theorem digitNibble_toNat {d : Nat} (h : d ≤ 9) : (digitNibble d).toNat = d := by
  simp only [digitNibble, BitVec.toNat_ofNat]
  omega

end Sys2Proof.Machine
end

