-- ==== Sys2Proof/Laws/Ops.lean ====
section
/-! SUPPORT. What each shared operation can do, said once: the handshake, the host's transactions, the ends of encoders and
decoders. Provers cite these instead of unfolding. -/

namespace Sys2Proof.Machine

/-! ### The handshake -/

/-- Issue while busy is dropped. -/
theorem State.issue_of_busy {s : State} (h : s.status.busy = true) (c : Byte) : s.issue c = s := by
  simp [State.issue, h]

/-- Issue while not busy latches the word and leaves only BUSY set. -/
theorem State.issue_of_idle {s : State} (h : s.status.busy = false) (c : Byte) :
    s.issue c = (s.setCur c).setStatus Status.issued := by
  simp [State.issue, h]

/-- The end of a command, as one record. -/
theorem State.complete_eq (s : State) (e : BitVec 3) :
    s.complete e = { s with status := { busy := false, done := true, dv := s.status.dv, err := e } } := rfl

/-- A host write while busy is dropped. -/
theorem State.hostWrite_of_busy {s : State} (h : s.status.busy = true) (t : State) : s.hostWrite t = s := by
  simp [State.hostWrite, h]

/-- A host write while not busy has its effect. -/
theorem State.hostWrite_of_idle {s : State} (h : s.status.busy = false) (t : State) : s.hostWrite t = t := by
  simp [State.hostWrite, h]

/-- Every transaction is one of these: nothing at all, a read, an accepted write of `VAL`, `LEN` or a buffer cell, or an
accepted Issue. -/
theorem State.perform_cases (s : State) (t : Transaction) :
    s.perform t = s ∨ (∃ r, s.perform t = s.logRead r) ∨
    (s.status.busy = false ∧ ∃ v, t = .hwVal v ∧ s.perform t = s.setVal v) ∨
    (s.status.busy = false ∧ ∃ n, t = .hwLen n ∧ s.perform t = s.setLen n) ∨
    (s.status.busy = false ∧ ∃ i b, t = .hwBuf i b ∧ s.perform t = s.writeBuf i b) ∨
    (s.status.busy = false ∧ ∃ c, t = .hwCmd c ∧ s.perform t = (s.setCur c).setStatus Status.issued) := by
  cases t with
  | hrVal => exact .inr (.inl ⟨_, rfl⟩)
  | hrRes => exact .inr (.inl ⟨_, rfl⟩)
  | hrLen => exact .inr (.inl ⟨_, rfl⟩)
  | hrBuf i => exact .inr (.inl ⟨_, rfl⟩)
  | hrStatus => exact .inr (.inl ⟨_, rfl⟩)
  | hrCmd => exact .inr (.inl ⟨_, rfl⟩)
  | hwRes v => exact .inl rfl
  | hwStatus b => exact .inl rfl
  | hwVal v =>
    cases hb : s.status.busy with
    | true => exact .inl (State.hostWrite_of_busy hb _)
    | false => exact .inr (.inr (.inl ⟨rfl, v, rfl, State.hostWrite_of_idle hb _⟩))
  | hwLen n =>
    cases hb : s.status.busy with
    | true => exact .inl (State.hostWrite_of_busy hb _)
    | false => exact .inr (.inr (.inr (.inl ⟨rfl, n, rfl, State.hostWrite_of_idle hb _⟩)))
  | hwBuf i b =>
    cases hb : s.status.busy with
    | true => exact .inl (State.hostWrite_of_busy hb _)
    | false => exact .inr (.inr (.inr (.inr (.inl ⟨rfl, i, b, rfl, State.hostWrite_of_idle hb _⟩))))
  | hwCmd c =>
    cases hb : s.status.busy with
    | true => exact .inl (State.issue_of_busy hb c)
    | false => exact .inr (.inr (.inr (.inr (.inr ⟨rfl, c, rfl, State.issue_of_idle hb c⟩))))

/-! ### The ends of encoders and decoders -/

/-- Where the cells exist, an encoder ends in the next state with its sequence delivered. -/
theorem deliverSequence_of_le {s : State} {bs : List Byte} (h : bs.length ≤ s.cfg.bufLen) :
    deliverSequence s bs =
      .next (((s.writeSeq bs).setLen (BitVec.ofNat 8 bs.length)).complete errNone) := by
  simp [deliverSequence, h]

/-- An encoder that answers a next state has delivered its sequence. -/
theorem deliverSequence_next {s t : State} {bs : List Byte} (h : deliverSequence s bs = .next t) :
    bs.length ≤ s.cfg.bufLen ∧ t = ((s.writeSeq bs).setLen (BitVec.ofNat 8 bs.length)).complete errNone := by
  unfold deliverSequence at h
  split at h
  · exact ⟨‹_›, by cases h; rfl⟩
  · cases h

/-- The sequence operand exists exactly for 1 <= LEN <= BUFLEN. -/
theorem State.seqOperand_eq_some_iff (s : State) (bs : List Byte) :
    s.seqOperand = some bs ↔ s.len.toNat ≠ 0 ∧ s.len.toNat ≤ s.cfg.bufLen ∧ s.readSeq s.len.toNat = bs := by
  unfold State.seqOperand
  split
  · rename_i h
    simp only [reduceCtorEq, false_iff]
    omega
  · rename_i h
    simp only [Option.some.injEq]
    constructor
    · intro e; exact ⟨by omega, by omega, e⟩
    · intro e; exact e.2.2

/-- A decoder's three ways to end: InvalidLength (also on a sequence without a value), a result, an error. -/
theorem State.decodeWith_cases (s : State) (f : List Byte → Option Decoded) :
    (s.seqOperand.bind f = none ∧ s.decodeWith f = s.complete errInvalidLength) ∨
    (∃ v, s.seqOperand.bind f = some (.ok v) ∧ s.decodeWith f = (s.setRes v).complete errNone) ∨
    (∃ k, s.seqOperand.bind f = some (.err k) ∧ s.decodeWith f = s.complete k.code) := by
  unfold State.decodeWith
  split
  · exact .inl ⟨‹_›, rfl⟩
  · rename_i d h
    cases d with
    | ok v => exact .inr (.inl ⟨v, h, rfl⟩)
    | err k => exact .inr (.inr ⟨k, h, rfl⟩)

/-- Outside 1 <= LEN <= BUFLEN a decoder ends with InvalidLength, whatever the buffer holds. -/
theorem State.decodeWith_of_badLength {s : State} (h : s.len.toNat = 0 ∨ s.len.toNat > s.cfg.bufLen)
    (f : List Byte → Option Decoded) : s.decodeWith f = s.complete errInvalidLength := by
  simp [State.decodeWith, State.seqOperand, h, State.raiseInvalidLength]

/-- Inside it, a decoder is its Layer 1 function on `BUF[0..LEN-1]`. -/
theorem State.decodeWith_of_length {s : State} (h0 : s.len.toNat ≠ 0) (h : s.len.toNat ≤ s.cfg.bufLen)
    {f : List Byte → Option Decoded} {d : Decoded} (hf : f (s.readSeq s.len.toNat) = some d) :
    s.decodeWith f = s.deliverDecoded d := by
  have : ¬ (s.len.toNat = 0 ∨ s.len.toNat > s.cfg.bufLen) := by omega
  simp [State.decodeWith, State.seqOperand, this, hf]

/-! ### What a command can do -/

/-- Every command that answers a next state is one of these. -/
theorem exec_next {i : Instr} {s t : State} (h : exec i s = .next t) :
    (∃ bs, bs.length ≤ s.cfg.bufLen ∧
      ((∃ n, i = .encz n ∧ bs = encodeZoned s.val) ∨ (∃ n, i = .encp n ∧ bs = encodePacked s.val)) ∧
      t = ((s.writeSeq bs).setLen (BitVec.ofNat 8 bs.length)).complete errNone) ∨
    (∃ f, ((∃ n, i = .decz n ∧ f = decodeZoned) ∨ (∃ n, i = .decp n ∧ f = decodePacked)) ∧ t = s.decodeWith f) ∨
    (∃ n, i = .chkd n ∧ t = (s.setStatus (s.status.withDv (isDigit n))).complete errNone) := by
  cases i with
  | encz n =>
    obtain ⟨hle, ht⟩ := deliverSequence_next h
    exact .inl ⟨_, hle, .inl ⟨n, rfl, rfl⟩, ht⟩
  | decz n =>
    refine .inr (.inl ⟨decodeZoned, .inl ⟨n, rfl, rfl⟩, ?_⟩)
    simp only [exec, execDecz, Host.Outcome.next.injEq] at h
    exact h.symm
  | encp n =>
    obtain ⟨hle, ht⟩ := deliverSequence_next h
    exact .inl ⟨_, hle, .inr ⟨n, rfl, rfl⟩, ht⟩
  | decp n =>
    refine .inr (.inl ⟨decodePacked, .inr ⟨n, rfl, rfl⟩, ?_⟩)
    simp only [exec, execDecp, Host.Outcome.next.injEq] at h
    exact h.symm
  | chkd n =>
    refine .inr (.inr ⟨n, rfl, ?_⟩)
    simp only [exec, execChkd, Host.Outcome.next.injEq] at h
    exact h.symm

end Sys2Proof.Machine
end

