-- ==== Sys2Proof/Laws/PerInstr.lean ====
section
/-! SUPPORT. The family `CommandWord`: what every command's word looks like, one lemma for each constructor of `Instr`. -/

namespace Sys2Proof.Laws.CommandWord

/-- The word of a command is its nibble above the opcode of the table (mask 0x0F, R94), with bit 3 clear (R90). -/
def Statement (i : Instr) : Prop :=
  nibField (encode i) = nibOf i ∧ Machine.lo (encode i) = opcodeOf i ∧ zField (encode i) = false ∧
    1 ≤ (opField (encode i)).toNat ∧ (opField (encode i)).toNat ≤ 5

theorem encz (nib : Nibble) : Statement (.encz nib) := by revert nib; unfold Statement; decide
theorem decz (nib : Nibble) : Statement (.decz nib) := by revert nib; unfold Statement; decide
theorem encp (nib : Nibble) : Statement (.encp nib) := by revert nib; unfold Statement; decide
theorem decp (nib : Nibble) : Statement (.decp nib) := by revert nib; unfold Statement; decide
theorem chkd (nib : Nibble) : Statement (.chkd nib) := by revert nib; unfold Statement; decide

end Sys2Proof.Laws.CommandWord
end

