-- ==== Sys2Proof/Laws/Step.lean ====
section
/-! SUPPORT. What one step can do, said once (`step_next`), and the step of each kind of turn. -/

namespace Sys2Proof.Machine

/-- The step of a schedule whose first turn is known. -/
theorem step_of_head {s : State} {tn : Turn} (h : s.turns.head? = some tn) :
    step s = takeTurn (some tn) (s.setTurns s.turns.tail) := by
  simp [step, h]

/-- The step of an empty schedule is the codec's. -/
theorem step_of_nil {s : State} (h : s.turns = []) : step s = codecTurn (s.setTurns s.turns.tail) := by
  simp [step, h, takeTurn]

/-- The codec's turn while not busy changes nothing. -/
theorem codecTurn_of_idle {s : State} (h : s.status.busy = false) : codecTurn s = .next s := by
  simp [codecTurn, h]

/-- The codec's turn while busy is Complete of the latched word. -/
theorem codecTurn_of_command {s : State} {i : Instr} (h : s.status.busy = true) (hi : decode s.cur = .command i) :
    codecTurn s = exec i s := by
  simp [codecTurn, completeCommand, State.commandWord, h, hi]

/-- Complete of an illegal word. -/
theorem codecTurn_of_illegal {s : State} {e : DecodeError} (h : s.status.busy = true) (he : decode s.cur = .illegal e) :
    codecTurn s = .next (s.complete errIllegalCommand) := by
  simp [codecTurn, completeCommand, State.commandWord, h, he, State.raiseIllegalCommand]

/-- What the codec's turn can do. -/
theorem codecTurn_next {s t : State} (h : codecTurn s = .next t) :
    (s.status.busy = false ∧ t = s) ∨
    (s.status.busy = true ∧ ∃ i, decode s.cur = .command i ∧ exec i s = .next t) ∨
    (s.status.busy = true ∧ ∃ e, decode s.cur = .illegal e ∧ t = s.complete errIllegalCommand) := by
  cases hb : s.status.busy with
  | false =>
    rw [codecTurn_of_idle hb] at h
    exact .inl ⟨rfl, by cases h; rfl⟩
  | true =>
    cases hd : decode s.cur with
    | command i => exact .inr (.inl ⟨rfl, i, rfl, by rw [← codecTurn_of_command hb hd]; exact h⟩)
    | illegal e =>
      rw [codecTurn_of_illegal hb hd] at h
      exact .inr (.inr ⟨rfl, e, rfl, by cases h; rfl⟩)

/-- The host's turn with a transaction performs it. -/
theorem hostTurn_of_some {s : State} {a : BusAccess} {tx : Transaction} (h : a.transaction s.cfg.bufLen = some tx) :
    hostTurn a s = .next (s.perform tx) := by
  simp [hostTurn, h]

/-- The host's turn with an access that is no transaction is refused. -/
theorem hostTurn_of_none {s : State} {a : BusAccess} (h : a.transaction s.cfg.bufLen = none) :
    hostTurn a s = .refused (.notATransaction a.offset) := by
  simp [hostTurn, h]

/-- One poll of `wait` records STATUS and touches nothing else but the schedule. -/
theorem waitTurn_eq (k : Nat) (s : State) :
    ∃ ts, waitTurn k s = (s.logRead (.status s.status.word)).setTurns ts := by
  unfold waitTurn
  split
  · exact ⟨s.turns, rfl⟩
  · cases k with
    | zero => exact ⟨_, rfl⟩
    | succ k => exact ⟨_, rfl⟩

/-- What one step can do, with the turn at hand taken off the schedule. -/
theorem step_next {s t : State} (h : step s = .next t) :
    ((s.turns = [] ∨ s.turns.head? = some .codec) ∧ codecTurn (s.setTurns s.turns.tail) = .next t) ∨
    (∃ a tx, s.turns.head? = some (.host a) ∧ a.transaction s.cfg.bufLen = some tx ∧
      t = (s.setTurns s.turns.tail).perform tx) ∨
    (∃ k, s.turns.head? = some (.wait k) ∧ t = waitTurn k (s.setTurns s.turns.tail)) ∨
    (s.turns.head? = some .reset ∧ t = (s.setTurns s.turns.tail).hardReset) ∨
    (s.turns.head? = some .powerUp ∧ t = (s.setTurns s.turns.tail).powerUp) := by
  cases hts : s.turns with
  | nil =>
    rw [step_of_nil hts, hts] at h
    exact .inl ⟨.inl rfl, h⟩
  | cons tn ts =>
    have hh : s.turns.head? = some tn := by simp [hts]
    rw [step_of_head hh, hts] at h
    cases tn with
    | codec => exact .inl ⟨.inr rfl, h⟩
    | host a =>
      refine .inr (.inl ⟨a, ?_⟩)
      simp only [takeTurn, hostTurn, State.setTurns_cfg] at h
      split at h
      · rename_i tx htx
        exact ⟨tx, rfl, htx, by cases h; rfl⟩
      · cases h
    | wait k => exact .inr (.inr (.inl ⟨k, rfl, by cases h; rfl⟩))
    | reset => exact .inr (.inr (.inr (.inl ⟨rfl, by cases h; rfl⟩)))
    | powerUp => exact .inr (.inr (.inr (.inr ⟨rfl, by cases h; rfl⟩)))

end Sys2Proof.Machine
end

