-- ==== Sys2Proof/Tests/Slice0.lean ====
section
/-! SUPPORT. Small tests with expected values from 95_test_vectors.md and the encodings of 30_encoding.md, the smoke tests of the
static checks, and for each obligation that has hypotheses a concrete case that meets them. -/

namespace Sys2Proof.Tests

open Sys2Proof.Machine Sys2Proof.Safety

/-! ### Helpers -/

/-- The next state of an outcome, if it is one. -/
def nextOf : Host.Outcome State Fault Refusal → Option State
  | .next s => some s
  | .fault _ => none
  | .refused _ => none

/-- After reset, with `VAL` set and the latched word `c` pending. -/
def pending (c : Byte) (v : Word) : State :=
  { State.reset with val := v, res := 0xAA, cur := c, status := Status.issued }

/-- After reset, with `bs` loaded, `LEN` its length, and the latched word `c` pending. -/
def loaded (c : Byte) (bs : List Byte) : State := ((pending c 0).writeSeq bs).setLen (BitVec.ofNat 8 bs.length)

/-- After reset, not busy, with one turn scheduled. -/
def scheduled (t : Turn) : State := { State.reset with turns := [t] }

/-- Busy, with one turn scheduled. -/
def busyScheduled (t : Turn) : State := { pending 0x01 0 with turns := [t] }

/-- After reset, a completed command. -/
def completed : State := { State.reset with status := { busy := false, done := true, dv := false, err := 0 }, cur := 0x01 }

/-- The digits of 2^63 - 1 as zoned bytes (vector E19). -/
def zonedMax : List Byte :=
  [0x39, 0x32, 0x32, 0x33, 0x33, 0x37, 0x32, 0x30, 0x33, 0x36, 0x38, 0x35, 0x34, 0x37, 0x37, 0x35, 0x38, 0x30, 0x37]

/-- The digits of 2^63 - 1 as packed bytes (vector E19). -/
def packedMax : List Byte := [0x92, 0x23, 0x37, 0x20, 0x36, 0x85, 0x47, 0x75, 0x80, 0x7C]

/-- The bytes of the buffer below `LEN`, `LEN`, and what a read of `STATUS` returns, after an outcome. -/
def bytesAndStatus (o : Host.Outcome State Fault Refusal) : Option (List Byte × Byte × Byte) :=
  (nextOf o).map fun t => (t.readSeq t.len.toNat, t.len, t.status.word)

/-- `RES` and what a read of `STATUS` returns, after an outcome. -/
def resAndStatus (o : Host.Outcome State Fault Refusal) : Option (Word × Byte) :=
  (nextOf o).map fun t => (t.res, t.status.word)

/-! ### The static checks refuse ill-formed terms (R8, R60, R62) -/

theorem test_config_19_refused : Config.wellFormed { bufLen := 19 } = false := by decide
theorem test_config_256_refused : Config.wellFormed { bufLen := 256 } = false := by decide
theorem test_write_of_absent_cell_refused : (Transaction.hwBuf 32 0x30).wellFormed 32 = false := by decide
theorem test_read_of_absent_cell_refused : (Transaction.hrBuf 255).wellFormed 32 = false := by decide
theorem test_absent_cell_is_no_transaction : (BusAccess.rd8 0x40).transaction 32 = none := by decide
theorem test_wide_command_write_is_no_transaction : (BusAccess.wr64 0x10 1).transaction 32 = none := by decide

/-! ### Command words written out from R90 to R92 and vectors H1 to H8 -/

theorem test_decode_encz : decode 0b00000001 = .command (.encz 0) := by decide
theorem test_decode_decz : decode 0b00000010 = .command (.decz 0) := by decide
theorem test_decode_encp : decode 0b00000011 = .command (.encp 0) := by decide
theorem test_decode_decp : decode 0b00000100 = .command (.decp 0) := by decide
theorem test_decode_chkd : decode 0b10010101 = .command (.chkd 9) := by decide
theorem test_decode_ignored_nibble : decode 0b11110011 = .command (.encp 15) := by decide
theorem test_decode_reserved_bit : decode 0b00001101 = .illegal .reservedBitSet := by decide
theorem test_decode_reserved_op : decode 0b11110111 = .illegal (.reservedOp 7) := by decide
theorem test_encode_chkd : encode (.chkd 0xA) = 0b10100101 := by decide
theorem test_table_word : decodeTableWord 8 0x01 = some (.encz 0) ∧ decodeTableWord 8 0x06 = none := by decide

/-! ### One step of each command (95_test_vectors.md, the vector named in each) -/

/-- E12 -/
theorem test_encz_negative :
    bytesAndStatus (step (pending 0x01 0xFFFFFFFFFFFFFF85)) = some ([0x31, 0x32, 0x73], 3, 0x02) := by decide
/-- E20, the most negative integer -/
theorem test_encz_most_negative :
    bytesAndStatus (step (pending 0x01 0x8000000000000000)) = some (zonedMax.dropLast ++ [0x78], 19, 0x02) := by decide
/-- Z18, a leading zero before the most negative integer -/
theorem test_decz_most_negative :
    resAndStatus (step (loaded 0x02 (0x30 :: (zonedMax.dropLast ++ [0x78])))) = some (0x8000000000000000, 0x02) := by decide
/-- Z11, `RES` unchanged -/
theorem test_decz_overflow :
    resAndStatus (step (loaded 0x02 (zonedMax.dropLast ++ [0x38]))) = some (0xAA, 0x42) := by decide
/-- E14, the pad nibble -/
theorem test_encp_negative :
    bytesAndStatus (step (pending 0x03 0xFFFFFFFFFFFFFC18)) = some ([0x01, 0x00, 0x0D], 3, 0x02) := by decide
/-- E20, with an ignored nibble -/
theorem test_encp_most_negative :
    bytesAndStatus (step (pending 0xF3 0x8000000000000000)) = some (packedMax.dropLast ++ [0x8D], 10, 0x02) := by decide
/-- S17 on E19 -/
theorem test_decp_largest : resAndStatus (step (loaded 0x04 packedMax)) = some (0x7FFFFFFFFFFFFFFF, 0x02) := by decide
/-- S14c, a sign marker in a digit position -/
theorem test_decp_digit : resAndStatus (step (loaded 0x04 [0x12, 0xCC])) = some (0xAA, 0x32) := by decide
/-- V1, n = 9 -/
theorem test_chkd_digit : resAndStatus (step (pending 0x95 0)) = some (0xAA, 0x06) := by decide
/-- V1, n = 10 -/
theorem test_chkd_no_digit : resAndStatus (step (pending 0xA5 0)) = some (0xAA, 0x02) := by decide
/-- R267 -/
theorem test_illegal_word : resAndStatus (step (pending 0x09 0)) = some (0xAA, 0x62) := by decide

/-! ### Every hypothesis can be met -/

/-- The pending state meets the invariants, whatever is loaded below BUFLEN. -/
theorem test_witness_inv_pending (c : Byte) (v : Word) : Inv (pending c v) :=
  ⟨rfl, rfl, rfl, (fun _ => ⟨rfl, rfl⟩), (fun h => nomatch h), (fun h => absurd rfl h), (fun h => nomatch h),
    by show (0 : BitVec 3) ≠ 7; decide⟩

theorem test_witness_DecodeAndEncodeAgree :
    Instr.wellFormed (.encz 15) = true ∧ Instr.wellFormed (.chkd 15) = true ∧ decode 0xF4 = .command (.decp 15) := by decide

theorem test_witness_DecodeByLowNibble :
    (0xF1 &&& 0x0F : Byte) = 0x01 ∧ (0x02 &&& 0x0F : Byte) = 0x02 ∧ (0x03 &&& 0x0F : Byte) = 0x03 ∧
    (0x04 &&& 0x0F : Byte) = 0x04 ∧ (0xF5 &&& 0x0F : Byte) = 0x05 ∧ (0xF0 &&& 0x0F : Byte) = 0x00 ∧
    0x06 ≤ (0x06 &&& 0x0F : Byte).toNat ∧ 0x06 ≤ (0xFF &&& 0x0F : Byte).toNat := by decide

theorem test_witness_AddressMapIsExact :
    (Transaction.hwBuf 31 0x39).wellFormed 32 = true ∧ (Transaction.hrBuf 0).wellFormed 32 = true ∧
    (BusAccess.wr8 0x3F 0x39).transaction 32 = some (.hwBuf 31 0x39) ∧ (BusAccess.rd8 0x20).transaction 32 = some (.hrBuf 0) ∧
    (BusAccess.rd8 0x10).transaction 32 = some .hrCmd := by decide

theorem test_witness_StepRunsLatchedCommand :
    CodecNext (pending 0x01 5) ∧ CodecNext (busyScheduled .codec) ∧ (pending 0x01 5).status.busy = true ∧
    (busyScheduled .codec).status.busy = true ∧ decode (pending 0x01 5).cur = .command (.encz 0) ∧
    decode (busyScheduled .codec).cur = .command (.encz 0) :=
  ⟨.inl rfl, .inr rfl, rfl, rfl, by decide, by decide⟩

theorem test_witness_IdleBlockKeepsAllState : CodecNext State.reset ∧ State.reset.status.busy = false := ⟨.inl rfl, rfl⟩

theorem test_witness_IllegalCommandChangesOnlyStatus :
    (∀ c v, CodecNext (pending c v) ∧ (pending c v).status.busy = true ∧ (pending c v).status.dv = false) ∧
    (pending 0x09 0).cur.getLsbD 3 = true ∧ (pending 0xF0 0).cur.extractLsb' 0 3 = 0 ∧
    (pending 0x06 0).cur.extractLsb' 0 3 = 6 ∧ (pending 0x07 0).cur.extractLsb' 0 3 = 7 ∧
    ∃ t, exec (.chkd 3) (pending 0x35 0) = .next t :=
  ⟨fun _ _ => ⟨.inl rfl, rfl, rfl⟩, by decide, by decide, by decide, by decide, _, rfl⟩

theorem test_witness_IssueLatchesOrIsDropped :
    ((scheduled (.host (.wr8 0x10 0xF9))).turns.head? = some (.host (.wr8 0x10 0xF9)) ∧
      (scheduled (.host (.wr8 0x10 0xF9))).status.busy = false) ∧
    ((busyScheduled (.host (.wr8 0x10 0x01))).turns.head? = some (.host (.wr8 0x10 0x01)) ∧
      (busyScheduled (.host (.wr8 0x10 0x01))).status.busy = true) := by decide

theorem test_witness_HostWritesTakeEffectUnlessBusy :
    (∀ a, (busyScheduled (.host a)).turns.head? = some (.host a) ∧ (busyScheduled (.host a)).status.busy = true ∧
      (scheduled (.host a)).turns.head? = some (.host a) ∧ (scheduled (.host a)).status.busy = false) ∧
    (0 < State.reset.cfg.bufLen ∧ 31 < State.reset.cfg.bufLen) :=
  ⟨fun _ => ⟨rfl, rfl, rfl, rfl⟩, by decide⟩

theorem test_witness_HostReadsChangeNothing :
    (∀ a, (busyScheduled (.host a)).turns.head? = some (.host a) ∧ Inv (busyScheduled (.host a)) ∧
      (busyScheduled (.host a)).status.busy = true) ∧
    (31 < (busyScheduled (.host (.rd8 (0x20 + 31)))).cfg.bufLen) :=
  ⟨fun _ => ⟨rfl, ⟨rfl, rfl, rfl, (fun _ => ⟨rfl, rfl⟩), (fun h => nomatch h), (fun h => absurd rfl h), (fun h => nomatch h),
    by show (0 : BitVec 3) ≠ 7; decide⟩, rfl⟩, by decide⟩

/-- The boundary offsets of each clause: 0x0F, 0x13, 0x1F and 0x20 + BUFLEN for bytes, 0x10 for words. -/
theorem test_witness_AccessOutsideTheMapIsRefused :
    (∀ a, (scheduled (.host a)).turns.head? = some (.host a)) ∧
    ((0x10 ≠ 0x00 ∧ 0x10 ≠ 0x08) ∧ 0x0F < 0x10 ∧ (0x13 ≤ 0x13 ∧ 0x13 < 0x20) ∧ (0x13 ≤ 0x1F ∧ 0x1F < 0x20) ∧
      0x20 + State.reset.cfg.bufLen ≤ 0x40) :=
  ⟨fun _ => rfl, by decide⟩

theorem test_witness_ResetAbandonsPendingCommand :
    (busyScheduled .reset).turns.head? = some .reset ∧ ∃ t, step (busyScheduled .reset) = .next t ∧ CodecNext t :=
  ⟨rfl, _, rfl, .inl rfl⟩

theorem test_witness_PowerUpDrawsTheBufferAnew : (busyScheduled .powerUp).turns.head? = some .powerUp := by decide

theorem test_witness_WaitPollsUntilDone :
    ((busyScheduled (.wait 0)).turns.head? = some (.wait 0) ∧ (busyScheduled (.wait 0)).status.word.getLsbD 1 = false) ∧
    ((busyScheduled (.wait 2)).turns.head? = some (.wait 2) ∧ (busyScheduled (.wait 2)).status.word.getLsbD 1 = false) ∧
    ((completed.setTurns [.wait 0]).turns.head? = some (.wait 0) ∧
      (completed.setTurns [.wait 0]).status.word.getLsbD 1 = true) := by decide

theorem test_witness_InvariantsHoldAfterReset :
    Config.wellFormed { bufLen := 20 } = true ∧ Config.wellFormed { bufLen := 255 } = true := by decide

theorem test_witness_StepKeepsInvariants : Inv (pending 0x95 0) ∧ ∃ t, step (pending 0x95 0) = .next t :=
  ⟨test_witness_inv_pending _ _, _, rfl⟩

/-- The state before ENCZ completes, and one after it in which the property says something. -/
theorem test_witness_EncodedLengthStaysInRange :
    EncodedLength (pending 0x01 5) ∧ (∀ n, (pending 0x01 5).turns.head? ≠ some (.host (.wr8 0x12 n))) ∧
    (∃ t, step (pending 0x01 5) = .next t ∧ t.status.done = true ∧ t.status.err = 0 ∧ decode t.cur = .command (.encz 0)) :=
  ⟨(fun h => nomatch h), (fun _ h => nomatch h), _, rfl, rfl, rfl, by decide⟩

theorem test_witness_StepStopsOnlyOnRefusedAccess : Inv (pending 0x01 0) := test_witness_inv_pending _ _

/-- Each way `VAL`, `RES` and `CUR` can change. -/
theorem test_witness_RegistersChangeOnlyAtTheirRules :
    (∃ t, step (busyScheduled .reset) = .next t ∧ t.res ≠ (busyScheduled .reset).res ∧ t.cur ≠ (busyScheduled .reset).cur) ∧
    (∃ t, step ((scheduled .powerUp).setVal 7) = .next t ∧ t.val ≠ 7) ∧
    (∃ t, step (scheduled (.host (.wr64 0x00 7))) = .next t ∧ t.val ≠ 0) ∧
    (∃ t, step (loaded 0x02 [0x35]) = .next t ∧ t.res ≠ 0xAA) ∧
    (∃ t, step (loaded 0x04 [0x5D]) = .next t ∧ t.res ≠ 0xAA) ∧
    (∃ t, step (scheduled (.host (.wr8 0x10 0xFF))) = .next t ∧ t.cur ≠ 0) :=
  ⟨⟨_, rfl, by decide, by decide⟩, ⟨_, rfl, by decide⟩, ⟨_, rfl, by decide⟩, ⟨_, rfl, by decide⟩, ⟨_, rfl, by decide⟩,
    ⟨_, rfl, by decide⟩⟩

/-- Each way `LEN` and a cell that was written can change. (That a power-up changes a cell no one can show: the draw is free.) -/
theorem test_witness_BufferChangesOnlyAtItsRules :
    (∃ t, step ((scheduled .reset).setLen 3) = .next t ∧ t.len ≠ 3) ∧
    (∃ t, step (scheduled (.host (.wr8 0x12 9))) = .next t ∧ t.len ≠ 0) ∧
    (∃ t, step ((scheduled (.host (.wr8 0x3F 0x39))).writeBuf 31 0x30) = .next t ∧ t.readBuf 31 ≠ 0x30) ∧
    (∃ t, step (loaded 0x01 [0x41, 0x42]) = .next t ∧ t.len ≠ 2 ∧ t.readBuf 0 ≠ 0x41) ∧
    (∃ t, step (loaded 0x03 [0x41, 0x42]) = .next t ∧ t.len ≠ 2 ∧ t.readBuf 0 ≠ 0x41) :=
  ⟨⟨_, rfl, by decide⟩, ⟨_, rfl, by decide⟩, ⟨_, rfl, by decide⟩, ⟨_, rfl, by decide, by decide⟩,
    ⟨_, rfl, by decide, by decide⟩⟩

theorem test_witness_StatusChangesOnlyAtTheHandshake :
    (∃ t, step (scheduled (.host (.wr8 0x10 0x08))) = .next t ∧ t.status ≠ (scheduled .codec).status) ∧
    (∃ t, step (pending 0x08 0) = .next t ∧ t.status ≠ (pending 0x08 0).status) ∧
    (∃ t, step (busyScheduled .powerUp) = .next t ∧ t.status ≠ (busyScheduled .powerUp).status) :=
  ⟨⟨_, rfl, by decide⟩, ⟨_, rfl, by decide⟩, ⟨_, rfl, by decide⟩⟩

theorem test_witness_PendingCommandCompletes :
    Inv ((pending 0x01 0).setTurns [.host (.wr8 0x10 0x02), .wait 2, .codec]) ∧
    ((pending 0x01 0).setTurns [.host (.wr8 0x10 0x02), .wait 2, .codec]).status.busy = true ∧
    (∀ tn ∈ ((pending 0x01 0).setTurns [.host (.wr8 0x10 0x02), .wait 2, .codec]).turns,
      isResetTurn tn = false ∧ refusedTurn 32 tn = false) :=
  ⟨⟨rfl, rfl, rfl, (fun _ => ⟨rfl, rfl⟩), (fun h => nomatch h), (fun h => absurd rfl h), (fun h => nomatch h),
    by show (0 : BitVec 3) ≠ 7; decide⟩, rfl, by decide⟩

theorem test_witness_IssueThenCompleteIsOneStep :
    completed.cfg.wellFormed = true ∧ completed.status.busy = false ∧
    (completed.setTurns [.host (.wr8 0x10 0x02), pollTurn, pollTurn, .codec, .reset]).turns =
      .host (.wr8 0x10 0x02) :: (List.replicate 2 pollTurn ++ .codec :: [.reset]) := by decide

theorem test_witness_EnczDeliversZonedBytes : (pending 0x01 0).cfg.wellFormed = true := by decide
theorem test_witness_EncpDeliversPackedBytes : (pending 0x03 0).cfg.wellFormed = true := by decide

/-- Each case of DECZ: both invalid lengths at their boundaries, the valid lengths at theirs, and each result on one byte or more. -/
theorem test_witness_DeczDeliversResultOrError :
    (loaded 0x02 []).len.toNat = 0 ∧ ((loaded 0x02 []).setLen 33).len.toNat > (loaded 0x02 []).cfg.bufLen ∧
    ((loaded 0x02 []).setLen 32).len.toNat ≤ (loaded 0x02 []).cfg.bufLen ∧ (loaded 0x02 [0x75]).len.toNat ≠ 0 ∧
    decodeZoned ((loaded 0x02 [0x75]).readSeq 1) = some (.ok (-5)) ∧
    decodeZoned ((loaded 0x02 [0x73, 0x31]).readSeq 2) = some (.err .invalidZonePart) ∧
    decodeZoned ((loaded 0x02 [0x00]).readSeq 1) = some (.err .invalidSignPart) ∧
    decodeZoned ((loaded 0x02 [0x7F]).readSeq 1) = some (.err .invalidDigitPart) ∧
    decodeZoned ((loaded 0x02 (List.replicate 19 0x39)).readSeq 19) = some (.err .overflow) := by decide

/-- The same for DECP. -/
theorem test_witness_DecpDeliversResultOrError :
    (loaded 0x04 []).len.toNat = 0 ∧ ((loaded 0x04 []).setLen 33).len.toNat > (loaded 0x04 []).cfg.bufLen ∧
    ((loaded 0x04 []).setLen 32).len.toNat ≤ (loaded 0x04 []).cfg.bufLen ∧ (loaded 0x04 [0x5D]).len.toNat ≠ 0 ∧
    decodePacked ((loaded 0x04 [0x5D]).readSeq 1) = some (.ok (-5)) ∧
    decodePacked ((loaded 0x04 [0x01, 0x2F]).readSeq 2) = some (.err .invalidSignPart) ∧
    decodePacked ((loaded 0x04 [0xA2, 0x3C]).readSeq 2) = some (.err .invalidDigitPart) ∧
    decodePacked ((loaded 0x04 (List.replicate 9 0x99 ++ [0x9D])).readSeq 10) = some (.err .overflow) := by decide

theorem test_witness_ErrorCodesByCommand :
    (∃ t, exec (.encz 0) (pending 0x01 7) = .next t) ∧ (∃ t, exec (.encp 0) (pending 0x03 7) = .next t) ∧
    (∃ t, exec (.chkd 0) (pending 0x05 7) = .next t) ∧ (∃ t, exec (.decz 0) (loaded 0x02 [0x35]) = .next t) ∧
    (∃ t, exec (.decp 0) (loaded 0x04 [0x5C]) = .next t) :=
  ⟨⟨_, rfl⟩, ⟨_, rfl⟩, ⟨_, rfl⟩, ⟨_, rfl⟩, ⟨_, rfl⟩⟩

theorem test_witness_FailedCommandWritesOnlyStatus :
    (∃ t, codecTurn (loaded 0x02 [0x00]) = .next t ∧ (loaded 0x02 [0x00]).status.busy = true ∧ t.status.err ≠ 0) ∧
    (∃ t, codecTurn (pending 0x08 0) = .next t ∧ (pending 0x08 0).status.busy = true ∧ t.status.err ≠ 0) :=
  ⟨⟨_, rfl, rfl, by decide⟩, ⟨_, rfl, rfl, by decide⟩⟩

theorem test_witness_InvalidLengthComesFirst :
    (loaded 0x02 []).len.toNat = 0 ∧ ((loaded 0x02 []).setLen 33).len.toNat > (loaded 0x02 []).cfg.bufLen ∧
    (∃ t, exec (.decz 0) (loaded 0x02 []) = .next t ∧ t.status.err = 5) ∧
    (∃ t, exec (.decp 0) ((loaded 0x04 []).setLen 33) = .next t ∧ t.status.err = 5) :=
  ⟨rfl, by decide, ⟨_, rfl, rfl⟩, ⟨_, rfl, rfl⟩⟩

/-- Two states of one instance that agree on the operands and differ in `RES`, `STATUS` and a cell beyond `LEN`. -/
theorem test_witness_OutcomeDependsOnOperandsAlone :
    ((loaded 0x02 [0x35]).writeBuf 7 0x99).cfg = (completed.writeBuf 0 0x35).cfg ∧
    (completed.writeBuf 0 0x35).cfg.wellFormed = true ∧
    ((loaded 0x02 [0x35]).writeBuf 7 0x99).val = (completed.writeBuf 0 0x35).val ∧
    ((loaded 0x02 [0x35]).writeBuf 7 0x99).len = ((completed.writeBuf 0 0x35).setLen 1).len ∧
    (∀ i, i < ((completed.writeBuf 0 0x35).setLen 1).len.toNat →
      ((loaded 0x02 [0x35]).writeBuf 7 0x99).readBuf i = ((completed.writeBuf 0 0x35).setLen 1).readBuf i) :=
  ⟨rfl, by decide, rfl, rfl, by decide⟩

theorem test_witness_MagnitudeIsExact :
    0 ≤ (0x7FFFFFFFFFFFFFFF : Word).toInt ∧ (0x8000000000000000 : Word).toInt < 0 ∧ 0 ≤ (0 : Word).toInt := by decide

theorem test_witness_DigitsAreTheDecimalDigits : (1 ≤ 1) ∧ (18 < numDigits (2 ^ 63)) ∧ (0 < numDigits 0) := by decide

theorem test_witness_ToInt64Bounds :
    (2 ^ 63 + 1 > 2 ^ 63) ∧ (2 ^ 63 ≤ 2 ^ 63) ∧ (2 ^ 63 > 2 ^ 63 - 1) ∧ (2 ^ 63 - 1 ≤ 2 ^ 63 - 1) := by decide

theorem test_witness_DigitLaws :
    (∀ d ∈ [9, 0], d ≤ 9) ∧ (∃ d, [9, 0].head? = some d ∧ d ≠ 0) ∧ (∀ d ∈ [0], d ≤ 9) ∧
    isNeg 0x8000000000000000 = true ∧ isNeg 0x7FFFFFFFFFFFFFFF = false :=
  ⟨by decide, ⟨9, rfl, by decide⟩, by decide, by decide, by decide⟩

/-- V8's boundary: nineteen nines are too big, the digits of 2^63 are not. -/
theorem test_witness_BoundedAccumulatorIsEquivalent :
    (∀ d ∈ List.replicate 19 9, d ≤ 9) ∧ digitsValue (List.replicate 19 9) > 2 ^ 63 ∧
    (∀ d ∈ digits (2 ^ 63), d ≤ 9) ∧ (accumulate (digits (2 ^ 63))).big = false := by decide

theorem test_witness_EncodeZonedBytes : 0 + 1 < (encodeZoned 10).length ∧ 17 + 1 < (encodeZoned 0x8000000000000000).length := by
  decide

theorem test_witness_EncodeZonedShape :
    (0 + 1 < (encodeZoned 10).length ∧ (encodeZoned 10)[0]? = some 0x31) ∧ 0 ≤ (10 : Word).toInt ∧ (-10 : Word).toInt < 0 := by
  decide

theorem test_witness_ZonedRoundTrip : State.reset.cfg.wellFormed = true := by decide

/-- Both answers: a canonical sequence, a leading zero, and negative zero. -/
theorem test_witness_CanonicalZonedSequences :
    (decodeZoned [0x31, 0x73] = some (.ok (-13)) ∧ encodeZoned (-13) = [0x31, 0x73]) ∧
    (decodeZoned [0x30, 0x31] = some (.ok 1) ∧ encodeZoned 1 ≠ [0x30, 0x31]) ∧
    (decodeZoned [0x70] = some (.ok 0) ∧ encodeZoned 0 ≠ [0x70]) := by decide

theorem test_witness_DecodeZonedSucceedsExactly :
    decodeZoned zonedMax = some (.ok 0x7FFFFFFFFFFFFFFF) ∧ decodeZoned [0x79] = some (.ok (-9)) := by decide

/-- Vector Z-M of the tie of R185, and each error. -/
theorem test_witness_ZonedErrorOrder :
    decodeZoned [0x4A, 0x31] = some (.err .invalidZonePart) ∧ decodeZoned [0x3A, 0x41, 0x31] = some (.err .invalidDigitPart) ∧
    decodeZoned [0x31, 0x43] = some (.err .invalidSignPart) ∧
    decodeZoned (zonedMax.dropLast ++ [0x38]) = some (.err .overflow) ∧
    decodeZoned (zonedMax.dropLast ++ [0x79]) = some (.err .overflow) := by decide

/-- An input with a zone, a digit and a sign violation, and one with a sign violation alone. -/
theorem test_witness_ZonedErrorsAreViolations :
    (0 + 1 < ([0x4A, 0x43] : List Byte).length ∧ ([0x4A, 0x43] : List Byte)[0]? = some 0x4A ∧ hi 0x4A ≠ 0x3) ∧
    (9 < (lo 0x4A).toNat) ∧ (([0x31, 0x43] : List Byte).getLast? = some 0x43 ∧ hi 0x43 ≠ 0x3 ∧ hi 0x43 ≠ 0x7) := by decide

theorem test_witness_OneByteZonedInputs :
    decodeZoned [0x30] = some (.ok 0) ∧ decodeZoned [0x39] = some (.ok 9) ∧ decodeZoned [0x70] = some (.ok 0) ∧
    decodeZoned [0x79] = some (.ok (-9)) := by decide

theorem test_witness_EncodePackedBytes : 9 < (encodePacked 0x8000000000000000).length ∧ 0 < (encodePacked 0).length := by decide

theorem test_witness_EncodePackedShape : 2 ≤ (encodePacked 10).length ∧ ¬ 2 ≤ (encodePacked 9).length := by decide

theorem test_witness_PackedRoundTrip : State.reset.cfg.wellFormed = true := by decide

theorem test_witness_CanonicalPackedSequences :
    (decodePacked [0x12, 0x3D] = some (.ok (-123)) ∧ encodePacked (-123) = [0x12, 0x3D]) ∧
    (decodePacked [0x00, 0x1C] = some (.ok 1) ∧ encodePacked 1 ≠ [0x00, 0x1C]) ∧
    (decodePacked [0x0D] = some (.ok 0) ∧ encodePacked 0 ≠ [0x0D]) := by decide

theorem test_witness_DecodePackedSucceedsExactly :
    decodePacked packedMax = some (.ok 0x7FFFFFFFFFFFFFFF) ∧ decodePacked [0x9D] = some (.ok (-9)) := by decide

theorem test_witness_PackedErrorOrder :
    decodePacked [0x12, 0xCC] = some (.err .invalidDigitPart) ∧ decodePacked [0x01, 0x2F] = some (.err .invalidSignPart) ∧
    decodePacked (packedMax.dropLast ++ [0x8C]) = some (.err .overflow) ∧
    decodePacked (packedMax.dropLast ++ [0x9D]) = some (.err .overflow) := by decide

theorem test_witness_LeadingZerosChangeNothing : ([0x31] : List Byte) ≠ [] ∧ ([0x1C] : List Byte) ≠ [] := by decide

end Sys2Proof.Tests
end

section
/-! PROOFS. What Reset and the first power-up leave in the block (R43, R44, R301). -/

namespace Sys2Proof.Machine

/-- `STATUS` reads as zero when all its fields are cleared (R28, R43). -/
@[simp] theorem Status.reset_word : Status.reset.word = 0x00 := rfl

/-- No cell is written at the first power-up: each reads as its draw (R44, R301). -/
theorem State.readBuf_resetOf (cfg : Config) (i : Nat) :
    (State.resetOf cfg).readBuf i = Config.bufPowerUp (State.resetOf cfg).powerUps i := rfl

/-- Reset leaves the buffer as it was (R44). -/
theorem State.readBuf_hardReset (s : State) (i : Nat) : s.hardReset.readBuf i = s.readBuf i :=
  State.readBuf_congr s.hardReset_buf s.hardReset_powerUps i

end Sys2Proof.Machine

namespace Sys2Proof.Proofs.ResetValues

open Sys2Proof.Machine

/-- Settles O14: the registers by the laws of `resetOf` and `hardReset`, the cells by what they read as after each. -/
theorem resetValues : Obligations.ResetValues := by
  unfold Obligations.ResetValues
  refine ⟨fun cfg => ⟨State.resetOf cfg, rfl, ?_⟩, State.reset_eq, fun s => ?_⟩
  case refine_1 => simp [State.readBuf_resetOf]
  case refine_2 => simp [State.readBuf_hardReset]

end Sys2Proof.Proofs.ResetValues
end

section
/-! PROOFS. How long the encoders' sequences are (R135, R162, R212). -/

namespace Sys2Proof.Machine

/-- The magnitude of a 64-bit value is at most `MAXMAG` (R7, R133). -/
theorem mag_le_maxMagnitude (v : Word) : mag v ≤ maxMagnitude := by
  have hlo := BitVec.le_two_mul_toInt (x := v)
  have hhi := BitVec.two_mul_toInt_lt (x := v)
  simp only [mag, maxMagnitude]
  omega

theorem numDigits_pos (m : Nat) : 1 ≤ numDigits m :=
  List.length_pos_iff.mpr (digits_ne_nil m)

/-- A number below ten to the `k + 1` has at most `k + 1` digits (R135). -/
theorem numDigits_le_of_lt_pow {k m : Nat} (h : m < 10 ^ (k + 1)) : numDigits m ≤ k + 1 := by
  induction k generalizing m with
  | zero => exact Nat.le_of_eq (numDigits_of_lt_ten h)
  | succ k ih =>
    by_cases hm : m < 10
    · rw [numDigits_of_lt_ten hm]
      omega
    · have hq : m / 10 < 10 ^ (k + 1) := by
        rw [Nat.pow_succ] at h
        omega
      rw [numDigits_of_ten_le (Nat.le_of_not_lt hm)]
      exact Nat.succ_le_succ (ih hq)

/-- A magnitude has at most 19 digits (R135). -/
theorem numDigits_mag_le (v : Word) : numDigits (mag v) ≤ 19 := by
  have hmag := mag_le_maxMagnitude v
  simp only [maxMagnitude] at hmag
  exact numDigits_le_of_lt_pow (k := 18) (by omega)

@[simp] theorem zonedBytes_length (sign : Nibble) : ∀ ds : List Nat, (zonedBytes sign ds).length = ds.length
  | [] => rfl
  | [_] => rfl
  | _ :: d :: ds => by simp [zonedBytes, zonedBytes_length sign (d :: ds)]

/-- One byte for each digit (R161). -/
theorem encodeZoned_length (v : Word) : (encodeZoned v).length = numDigits (mag v) :=
  zonedBytes_length _ _

/-- A padded digit string has odd length, so that the sign completes the last byte (R211). -/
theorem padOdd_length (ds : List Nat) : (padOdd ds).length = ds.length / 2 * 2 + 1 := by
  unfold padOdd
  split
  · rw [List.length_cons]
    omega
  · omega

/-- Two digits, or a digit and the sign, in each byte (R211). -/
theorem encodePacked_length (v : Word) : (encodePacked v).length = numDigits (mag v) / 2 + 1 := by
  simp only [encodePacked, packNibbles_length, List.length_append, List.length_map, padOdd_length, List.length_singleton,
    numDigits]
  omega

/-- ENCZ delivers 1 to 19 bytes (R162). -/
theorem encodeZoned_length_range (v : Word) : 1 ≤ (encodeZoned v).length ∧ (encodeZoned v).length ≤ 19 := by
  rw [encodeZoned_length]
  exact ⟨numDigits_pos _, numDigits_mag_le v⟩

/-- ENCP delivers 1 to 10 bytes (R212). -/
theorem encodePacked_length_range (v : Word) : 1 ≤ (encodePacked v).length ∧ (encodePacked v).length ≤ 10 := by
  have hmax := numDigits_mag_le v
  rw [encodePacked_length]
  omega

/-- The length of an encoder's sequence fits `LEN`, so `LEN` is that length. -/
theorem toNat_ofNat_length {bs : List Byte} (h : bs.length ≤ 19) : (BitVec.ofNat 8 bs.length).toNat = bs.length := by
  rw [BitVec.toNat_ofNat]
  omega

end Sys2Proof.Machine
end

section
/-! PROOFS. The turns one by one: which access carries a transaction (R62), and the step of each kind of turn. -/

namespace Sys2Proof.Machine

open Sys2Proof.Safety

/-- An access that is a transaction is the one that carries it, and a cell it names exists (R60, R62). -/
theorem BusAccess.access_of_transaction {bufLen : Nat} {a : BusAccess} {tx : Transaction}
    (h : a.transaction bufLen = some tx) : tx.wellFormed bufLen = true ∧ tx.access = a := by
  cases a with
  | wr64 off v | rd64 off =>
    simp only [BusAccess.transaction] at h
    split at h
    case isTrue hoff => cases h; exact ⟨rfl, hoff ▸ rfl⟩
    split at h
    case isTrue hoff => cases h; exact ⟨rfl, hoff ▸ rfl⟩
    case isFalse => cases h
  | wr8 off b | rd8 off =>
    simp only [BusAccess.transaction] at h
    split at h
    case isTrue hoff => cases h; exact ⟨rfl, hoff ▸ rfl⟩
    split at h
    case isTrue hoff => cases h; exact ⟨rfl, hoff ▸ rfl⟩
    split at h
    case isTrue hoff => cases h; exact ⟨rfl, hoff ▸ rfl⟩
    case isFalse =>
      obtain ⟨i, hi, rfl⟩ := Option.map_eq_some_iff.mp h
      obtain ⟨hlt, rfl⟩ := (bufCellAt_eq_some_iff _ _ _).mp hi
      exact ⟨decide_eq_true hlt, rfl⟩
  | otherWidth bits off => cases h

/-- The step of the codec, scheduled or left alone. -/
theorem step_of_codecNext {s : State} (h : CodecNext s) : step s = codecTurn (atTurn s) := by
  rcases h with hnil | hhead
  · exact step_of_nil hnil
  · exact step_of_head hhead

/-- The step of a host access that is a transaction performs it. -/
theorem step_of_transaction {s : State} {a : BusAccess} {tx : Transaction} (h : s.turns.head? = some (.host a))
    (htx : a.transaction s.cfg.bufLen = some tx) : step s = .next ((atTurn s).perform tx) :=
  (step_of_head h).trans (hostTurn_of_some htx)

/-- The step of a Reset turn. -/
theorem step_of_reset {s : State} (h : s.turns.head? = some .reset) : step s = .next (atTurn s).hardReset :=
  step_of_head h

end Sys2Proof.Machine
end

section
/-! PROOFS. The codes a decoder ends with, by the command word (R231, R261). -/

namespace Sys2Proof.Machine

open Sys2Proof.Safety

theorem wordErrAllowed_of_command {c : Byte} {i : Instr} (h : decode c = .command i) (e : BitVec 3) :
    wordErrAllowed c e = errAllowed i e := by
  simp [wordErrAllowed, h]

theorem wordErrAllowed_of_illegal {c : Byte} {r : DecodeError} (h : decode c = .illegal r) :
    wordErrAllowed c errIllegalCommand = true := by
  simp [wordErrAllowed, h]

/-- No command word ends with code 7, which is reserved (R32, R261). -/
theorem wordErrAllowed_seven (c : Byte) : wordErrAllowed c 7 = false := by
  unfold wordErrAllowed
  split
  case h_1 i _ => cases i <;> rfl
  case h_2 => rfl

theorem ErrorKind.code_ne_zero (k : ErrorKind) : k.code ≠ 0 := by cases k <;> decide

theorem errAllowed_decz_code (n : Nibble) (k : ErrorKind) : errAllowed (.decz n) k.code = true := by cases k <;> rfl

theorem errAllowed_decp_code (n : Nibble) {k : ErrorKind} (h : k ≠ .invalidZonePart) :
    errAllowed (.decp n) k.code = true := by
  cases k with
  | invalidZonePart => exact absurd rfl h
  | invalidSignPart => rfl
  | invalidDigitPart => rfl
  | overflow => rfl

/-- The range test of ToInt64 fails with Overflow alone (R137, R274). -/
theorem toInt64_eq_err {neg : Bool} {m : Nat} {k : ErrorKind} (h : toInt64 neg m = .err k) : k = .overflow := by
  unfold toInt64 at h
  split at h <;> split at h <;> cases h <;> rfl

/-- Packed decimal has no zones, so its decoder never blames one (R231). -/
theorem decodePacked_ne_invalidZonePart {bs : List Byte} {k : ErrorKind} (h : decodePacked bs = some (.err k)) :
    k ≠ .invalidZonePart := by
  unfold decodePacked at h
  split at h
  case h_1 => cases h
  split at h
  case h_1 hv =>
    unfold packedViolation at hv
    split at hv <;> cases hv
    cases h
    exact ErrorKind.noConfusion
  split at h
  case h_1 => cases h; exact ErrorKind.noConfusion
  case h_2 =>
    rw [toInt64_eq_err (Option.some.inj h)]
    exact ErrorKind.noConfusion

end Sys2Proof.Machine
end

section
/-! PROOFS. What one step does to the block, said once with the turn that does it; the invariants and the frame rules are read
off from here. -/

namespace Sys2Proof.Machine

open Sys2Proof.Safety

/-- What Complete (R41) of the word in `CUR` can do. -/
inductive CompleteEffect (s : State) : State → Prop
  /-- ENCZ and ENCP deliver their sequence (R162, R212). -/
  | encodes (bs : List Byte) (fits : bs.length ≤ s.cfg.bufLen)
      (sequence : ∃ n, decode s.cur = .command (.encz n) ∧ bs = encodeZoned s.val ∨
        decode s.cur = .command (.encp n) ∧ bs = encodePacked s.val) :
      CompleteEffect s (((s.writeSeq bs).setLen (BitVec.ofNat 8 bs.length)).complete errNone)
  /-- DECZ and DECP deliver a result (R181, R231). -/
  | decodes (v : Word) (latched : ∃ n, decode s.cur = .command (.decz n) ∨ decode s.cur = .command (.decp n)) :
      CompleteEffect s ((s.setRes v).complete errNone)
  /-- A decoder or an illegal word ends with an error (R262, R267). -/
  | fails (e : BitVec 3) (isError : e ≠ 0) (allowed : wordErrAllowed s.cur e = true) : CompleteEffect s (s.complete e)
  /-- CHKD tests its nibble (R132). -/
  | checks (n : Nibble) (latched : decode s.cur = .command (.chkd n)) :
      CompleteEffect s ((s.setStatus (s.status.withDv (isDigit n))).complete errNone)

/-- A latched decoder delivers a result or ends with an error of its own. -/
theorem completeEffect_decodeWith {s : State} {f : List Byte → Option Decoded} (n : Nibble)
    (h : decode s.cur = .command (.decz n) ∧ f = decodeZoned ∨ decode s.cur = .command (.decp n) ∧ f = decodePacked) :
    CompleteEffect s (s.decodeWith f) := by
  rcases s.decodeWith_cases f with ⟨_, ht⟩ | ⟨v, _, ht⟩ | ⟨k, hk, ht⟩ <;> rw [ht]
  · refine .fails _ (by decide) ?_
    rcases h with ⟨hd, _⟩ | ⟨hd, _⟩ <;> exact wordErrAllowed_of_command hd _
  · exact .decodes v ⟨n, h.imp And.left And.left⟩
  · refine .fails _ k.code_ne_zero ?_
    rcases h with ⟨hd, _⟩ | ⟨hd, rfl⟩ <;> rw [wordErrAllowed_of_command hd]
    · exact errAllowed_decz_code n k
    · obtain ⟨bs, _, hbs⟩ := Option.bind_eq_some_iff.mp hk
      exact errAllowed_decp_code n (decodePacked_ne_invalidZonePart hbs)

/-- The codec's turn while busy is one of the ends of Complete. -/
theorem codecTurn_completeEffect {s t : State} (busy : s.status.busy = true) (h : codecTurn s = .next t) :
    CompleteEffect s t := by
  rcases codecTurn_next h with ⟨idle, _⟩ | ⟨_, i, hd, hi⟩ | ⟨_, r, hd, rfl⟩
  · rw [busy] at idle
    cases idle
  · rcases exec_next hi with ⟨bs, hle, hbs, rfl⟩ | ⟨f, hf, rfl⟩ | ⟨n, rfl, rfl⟩
    · refine .encodes bs hle ?_
      rcases hbs with ⟨n, rfl, hbs⟩ | ⟨n, rfl, hbs⟩
      · exact ⟨n, .inl ⟨hd, hbs⟩⟩
      · exact ⟨n, .inr ⟨hd, hbs⟩⟩
    · rcases hf with ⟨n, rfl, hf⟩ | ⟨n, rfl, hf⟩
      · exact completeEffect_decodeWith n (.inl ⟨hd, hf⟩)
      · exact completeEffect_decodeWith n (.inr ⟨hd, hf⟩)
    · exact .checks n hd
  · exact .fails _ (by decide) (wordErrAllowed_of_illegal hd)

/-- What one step can do, by the turn at hand. -/
inductive StepEffect (s : State) : State → Prop
  /-- Idle codec, read, poll, or dropped write: the block is kept (R45, R46, R277). -/
  | keeps (ts : List Turn) (rs : List Reading) : StepEffect s { s with turns := ts, reads := rs }
  | writesVal (v : Word) (idle : s.status.busy = false) (turn : s.turns.head? = some (.host (.wr64 0x00 v))) :
      StepEffect s ((atTurn s).setVal v)
  | writesLen (n : Byte) (idle : s.status.busy = false) (turn : s.turns.head? = some (.host (.wr8 0x12 n))) :
      StepEffect s ((atTurn s).setLen n)
  | writesCell (i : Nat) (b : Byte) (idle : s.status.busy = false) (cellExists : i < s.cfg.bufLen)
      (turn : s.turns.head? = some (.host (.wr8 (0x20 + i) b))) : StepEffect s ((atTurn s).writeBuf i b)
  | issues (c : Byte) (idle : s.status.busy = false) (turn : s.turns.head? = some (.host (.wr8 0x10 c))) :
      StepEffect s (((atTurn s).setCur c).setStatus Status.issued)
  | completes (t : State) (busy : s.status.busy = true) (turn : CodecNext s) (effect : CompleteEffect (atTurn s) t) :
      StepEffect s t
  | resets (turn : s.turns.head? = some .reset) : StepEffect s (atTurn s).hardReset
  | powersUp (turn : s.turns.head? = some .powerUp) : StepEffect s (atTurn s).powerUp

/-- What a host transaction can do. -/
theorem stepEffect_perform {s : State} {a : BusAccess} {tx : Transaction} (turn : s.turns.head? = some (.host a))
    (htx : a.transaction s.cfg.bufLen = some tx) : StepEffect s ((atTurn s).perform tx) := by
  obtain ⟨hwf, rfl⟩ := BusAccess.access_of_transaction htx
  rcases (atTurn s).perform_cases tx with
    ht | ⟨r, ht⟩ | ⟨idle, v, rfl, ht⟩ | ⟨idle, n, rfl, ht⟩ | ⟨idle, i, b, rfl, ht⟩ | ⟨idle, c, rfl, ht⟩ <;> rw [ht]
  · exact .keeps _ _
  · exact .keeps _ _
  · exact .writesVal v idle turn
  · exact .writesLen n idle turn
  · exact .writesCell i b idle (of_decide_eq_true hwf) turn
  · exact .issues c idle turn

/-- Every step is one of the listed effects. -/
theorem step_stepEffect {s t : State} (h : step s = .next t) : StepEffect s t := by
  rcases step_next h with ⟨turn, hc⟩ | ⟨a, tx, turn, htx, rfl⟩ | ⟨k, _, rfl⟩ | ⟨turn, rfl⟩ | ⟨turn, rfl⟩
  · cases hb : s.status.busy with
    | false =>
      rw [codecTurn_of_idle (s := s.setTurns s.turns.tail) hb] at hc
      cases hc
      exact .keeps _ _
    | true => exact .completes t hb turn (codecTurn_completeEffect hb hc)
  · exact stepEffect_perform turn htx
  · obtain ⟨ts, ht⟩ := waitTurn_eq k (s.setTurns s.turns.tail)
    rw [ht]
    exact .keeps _ _
  · exact .resets turn
  · exact .powersUp turn

end Sys2Proof.Machine
end

section
/-! PROOFS. The invariants of R47 after each kind of effect on `STATUS`. -/

namespace Sys2Proof.Safety

open Sys2Proof.Machine

/-- The invariants speak of the parameter, the buffer, `STATUS` and `CUR` alone; the buffer need only stay canonical. -/
theorem Inv.of_same_status {s t : State} (h : Inv s) (hcfg : t.cfg = s.cfg) (hbuf : Memory.wf s.cfg.bufLen t.buf = true)
    (hstatus : t.status = s.status) (hcur : t.cur = s.cur) : Inv t where
  cfgOk := hcfg ▸ h.cfgOk
  bufOk := hcfg ▸ hbuf
  notBusyAndDone := hstatus ▸ h.notBusyAndDone
  busyClear := hstatus ▸ h.busyClear
  dvMeans := by rw [hstatus, hcur]; exact h.dvMeans
  errDone := hstatus ▸ h.errDone
  errOfCommand := by rw [hstatus, hcur]; exact h.errOfCommand
  errNot7 := hstatus ▸ h.errNot7

/-- With nothing completed and nothing reported, as after Reset (R43) and Issue (R40). -/
theorem Inv.of_nothing_done {t : State} (cfgOk : t.cfg.wellFormed = true) (bufOk : Memory.wf t.cfg.bufLen t.buf = true)
    (hdone : t.status.done = false) (hdv : t.status.dv = false) (herr : t.status.err = 0) : Inv t where
  cfgOk := cfgOk
  bufOk := bufOk
  notBusyAndDone := by rw [hdone, Bool.and_false]
  busyClear _ := ⟨herr, hdv⟩
  dvMeans h := by rw [hdv] at h; cases h
  errDone h := absurd herr h
  errOfCommand h := by rw [hdone] at h; cases h
  errNot7 := by rw [herr]; decide

/-- After Complete (R41) with a code its word can end with; `DV` is only set by CHKD of a digit. -/
theorem Inv.of_complete {s : State} {e : BitVec 3} (cfgOk : s.cfg.wellFormed = true)
    (bufOk : Memory.wf s.cfg.bufLen s.buf = true) (hdv : s.status.dv = true → e = 0 ∧ isChkdOfDigit s.cur = true)
    (allowed : wordErrAllowed s.cur e = true) : Inv (s.complete e) where
  cfgOk := cfgOk
  bufOk := bufOk
  notBusyAndDone := rfl
  busyClear h := nomatch h
  dvMeans h := ⟨rfl, hdv h⟩
  errDone _ := rfl
  errOfCommand _ := allowed
  errNot7 h := by
    rw [State.complete_status, Status.completed_err] at h
    rw [h, wordErrAllowed_seven] at allowed
    cases allowed

/-- Taking the turn at hand off the schedule keeps the invariants. -/
theorem Inv.atTurn {s : State} (h : Inv s) : Inv (atTurn s) :=
  h.of_same_status rfl h.bufOk rfl rfl

/-- Complete keeps the invariants while busy, where `DV = 0` (R47 b). -/
theorem Inv.of_completeEffect {s t : State} (h : Inv s) (busy : s.status.busy = true) (effect : CompleteEffect s t) :
    Inv t := by
  have hdv : s.status.dv ≠ true := Bool.eq_false_iff.mp (h.busyClear busy).2
  cases effect with
  | encodes bs fits sequence =>
    refine .of_complete h.cfgOk (Memory.wf_writeSeq bs s.buf 0 (by simpa using fits) h.bufOk) (absurd · hdv) ?_
    obtain ⟨n, ⟨hd, _⟩ | ⟨hd, _⟩⟩ := sequence <;> exact wordErrAllowed_of_command hd _
  | decodes v latched =>
    refine .of_complete h.cfgOk h.bufOk (absurd · hdv) ?_
    obtain ⟨n, hd | hd⟩ := latched <;> exact wordErrAllowed_of_command hd _
  | fails e isError allowed => exact .of_complete h.cfgOk h.bufOk (absurd · hdv) allowed
  | checks n latched =>
    refine .of_complete h.cfgOk h.bufOk (fun digit => ⟨rfl, ?_⟩) (wordErrAllowed_of_command latched _)
    simpa [isChkdOfDigit, latched] using digit

end Sys2Proof.Safety

namespace Sys2Proof.Proofs.StepKeepsInvariants

open Sys2Proof.Machine Sys2Proof.Safety

/-- Settles O17, by cases on what the step does (`StepEffect`). -/
theorem stepKeepsInvariants : Obligations.StepKeepsInvariants := by
  unfold Obligations.StepKeepsInvariants
  intro s t h hstep
  cases step_stepEffect hstep with
  | keeps ts rs => exact h.of_same_status rfl h.bufOk rfl rfl
  | writesVal v => exact h.of_same_status rfl h.bufOk rfl rfl
  | writesLen n => exact h.of_same_status rfl h.bufOk rfl rfl
  | writesCell i b _ cellExists => exact h.of_same_status rfl (Memory.wf_write b s.buf cellExists h.bufOk) rfl rfl
  | issues c => exact .of_nothing_done h.cfgOk h.bufOk rfl rfl rfl
  | completes t busy _ effect => exact h.atTurn.of_completeEffect busy effect
  | resets => exact .of_nothing_done h.cfgOk h.bufOk rfl rfl rfl
  | powersUp => exact .of_nothing_done h.cfgOk (Memory.wf_nil _) rfl rfl rfl

end Sys2Proof.Proofs.StepKeepsInvariants

namespace Sys2Proof.Proofs.InvariantsHoldAfterReset

open Sys2Proof.Machine Sys2Proof.Safety

/-- Settles O16: after the first power-up nothing is done and no cell is listed. -/
theorem invariantsHoldAfterReset : Obligations.InvariantsHoldAfterReset := by
  unfold Obligations.InvariantsHoldAfterReset
  have hinv (cfg : Config) (hcfg : cfg.wellFormed = true) : Inv (State.resetOf cfg) :=
    .of_nothing_done hcfg (Memory.wf_nil _) rfl rfl rfl
  exact ⟨hinv Config.default rfl, hinv⟩

end Sys2Proof.Proofs.InvariantsHoldAfterReset
end

section
/-! PROOFS. R47 (f): the length an encoder left. -/

namespace Sys2Proof.Safety

open Sys2Proof.Machine

/-- The rule is about `LEN`, `STATUS` and `CUR` alone. -/
theorem EncodedLength.of_same_len {s t : State} (h : EncodedLength s) (hlen : t.len = s.len) (hstatus : t.status = s.status)
    (hcur : t.cur = s.cur) : EncodedLength t := by
  unfold EncodedLength
  rw [hlen, hstatus, hcur]
  exact h

/-- The rule asks nothing before a command has completed. -/
theorem EncodedLength.of_not_done {t : State} (h : t.status.done = false) : EncodedLength t := by
  intro hdone
  rw [h] at hdone
  cases hdone

/-- The rule asks nothing where the word in `CUR` is no encoder's. -/
theorem EncodedLength.of_no_encoder {t : State}
    (h : ∀ n, decode t.cur ≠ .command (.encz n) ∧ decode t.cur ≠ .command (.encp n)) : EncodedLength t :=
  fun _ _ => ⟨fun n hn => absurd hn (h n).1, fun n hn => absurd hn (h n).2⟩

/-- Complete leaves the length of an encoder in its range (R162, R212). -/
theorem EncodedLength.of_completeEffect {s t : State} (effect : CompleteEffect s t) : EncodedLength t := by
  cases effect with
  | encodes bs _ sequence =>
    obtain ⟨n, ⟨hd, rfl⟩ | ⟨hd, rfl⟩⟩ := sequence
    · have hrange := encodeZoned_length_range s.val
      refine fun _ _ => ⟨fun _ _ => ?_, fun _ hp => by simp [hd] at hp⟩
      simpa [toNat_ofNat_length hrange.2] using hrange
    · have hrange := encodePacked_length_range s.val
      refine fun _ _ => ⟨fun _ hz => by simp [hd] at hz, fun _ _ => ?_⟩
      simpa [toNat_ofNat_length (by omega : (encodePacked s.val).length ≤ 19)] using hrange
  | decodes v latched =>
    obtain ⟨n, hd | hd⟩ := latched <;> exact .of_no_encoder (by simp [hd])
  | fails e isError allowed => exact fun _ herr => absurd herr isError
  | checks n latched => exact .of_no_encoder (by simp [latched])

end Sys2Proof.Safety

namespace Sys2Proof.Proofs.EncodedLengthStaysInRange

open Sys2Proof.Machine Sys2Proof.Safety

/-- Settles O18: of the effects of a step only Complete and the excluded write of `LEN` matter. -/
theorem encodedLengthStaysInRange : Obligations.EncodedLengthStaysInRange := by
  unfold Obligations.EncodedLengthStaysInRange
  refine ⟨fun cfg => .of_not_done rfl, fun s t h noWrite hstep => ?_⟩
  cases step_stepEffect hstep with
  | keeps ts rs => exact h.of_same_len rfl rfl rfl
  | writesVal v => exact h.of_same_len rfl rfl rfl
  | writesLen n _ turn => exact absurd turn (noWrite n)
  | writesCell i b => exact h.of_same_len rfl rfl rfl
  | issues c => exact .of_not_done rfl
  | completes t _ _ effect => exact .of_completeEffect effect
  | resets => exact .of_not_done rfl
  | powersUp => exact .of_not_done rfl

end Sys2Proof.Proofs.EncodedLengthStaysInRange
end

section
/-! PROOFS. The whole-machine frame rules: what alone changes each register and each cell. -/

namespace Sys2Proof.Machine

open Sys2Proof.Safety

/-- Complete leaves `VAL`, `CUR` and the parameter alone, and ends the command (R41). -/
theorem CompleteEffect.frame {s t : State} (effect : CompleteEffect s t) :
    t.val = s.val ∧ t.cur = s.cur ∧ t.cfg = s.cfg ∧ t.status.busy = false ∧ t.status.done = true := by
  cases effect <;> exact ⟨rfl, rfl, rfl, rfl, rfl⟩

/-- Complete changes `RES` only for a decoder without error (R181, R231, R262). -/
theorem CompleteEffect.res {s t : State} (effect : CompleteEffect s t) :
    t.res = s.res ∨
      t.status.err = 0 ∧ ∃ n, decode s.cur = .command (.decz n) ∨ decode s.cur = .command (.decp n) := by
  cases effect with
  | encodes => exact .inl rfl
  | decodes v latched => exact .inr ⟨rfl, latched⟩
  | fails => exact .inl rfl
  | checks => exact .inl rfl

/-- Complete changes `LEN` and the cells only for an encoder, and then the cells below the new `LEN` alone (R162, R212). -/
theorem CompleteEffect.buffer {s t : State} (effect : CompleteEffect s t) :
    (t.len = s.len ∧ ∀ i, t.readBuf i = s.readBuf i) ∨
      (∀ i, t.len.toNat ≤ i → t.readBuf i = s.readBuf i) ∧
        ∃ n, decode s.cur = .command (.encz n) ∨ decode s.cur = .command (.encp n) := by
  cases effect with
  | encodes bs _ sequence =>
    obtain ⟨n, h⟩ := sequence
    have hlen : (BitVec.ofNat 8 bs.length).toNat = bs.length := by
      refine toNat_ofNat_length ?_
      rcases h with ⟨_, rfl⟩ | ⟨_, rfl⟩
      · exact (encodeZoned_length_range s.val).2
      · exact Nat.le_trans (encodePacked_length_range s.val).2 (by omega)
    refine .inr ⟨fun i hi => ?_, n, h.imp And.left And.left⟩
    exact s.readBuf_writeSeq_outside bs i (hlen ▸ hi)
  | decodes => exact .inl ⟨rfl, fun _ => rfl⟩
  | fails => exact .inl ⟨rfl, fun _ => rfl⟩
  | checks => exact .inl ⟨rfl, fun _ => rfl⟩

end Sys2Proof.Machine

namespace Sys2Proof.Proofs.RegistersChangeOnlyAtTheirRules

open Sys2Proof.Machine Sys2Proof.Safety

/-- Settles O20, by cases on what the step does. -/
theorem registersChangeOnlyAtTheirRules : Obligations.RegistersChangeOnlyAtTheirRules := by
  unfold Obligations.RegistersChangeOnlyAtTheirRules
  intro s t hstep
  cases step_stepEffect hstep with
  | keeps ts rs => exact ⟨absurd rfl, absurd rfl, absurd rfl, rfl⟩
  | writesVal v idle turn => exact ⟨fun _ => .inr ⟨idle, turn⟩, absurd rfl, absurd rfl, rfl⟩
  | writesLen n => exact ⟨absurd rfl, absurd rfl, absurd rfl, rfl⟩
  | writesCell i b => exact ⟨absurd rfl, absurd rfl, absurd rfl, rfl⟩
  | issues c idle turn => exact ⟨absurd rfl, absurd rfl, fun _ => .inr ⟨idle, turn⟩, rfl⟩
  | completes t busy turn effect =>
    obtain ⟨hval, hcur, hcfg, _, _⟩ := effect.frame
    refine ⟨absurd hval, fun hres => .inr ?_, absurd hcur, hcfg⟩
    obtain ⟨herr, latched⟩ := effect.res.resolve_left hres
    exact ⟨busy, turn, herr, latched⟩
  | resets turn =>
    exact ⟨fun _ => .inl ⟨rfl, .inl turn⟩, fun _ => .inl ⟨rfl, .inl turn⟩, fun _ => .inl ⟨rfl, .inl turn⟩, rfl⟩
  | powersUp turn =>
    exact ⟨fun _ => .inl ⟨rfl, .inr turn⟩, fun _ => .inl ⟨rfl, .inr turn⟩, fun _ => .inl ⟨rfl, .inr turn⟩, rfl⟩

end Sys2Proof.Proofs.RegistersChangeOnlyAtTheirRules

namespace Sys2Proof.Proofs.BufferChangesOnlyAtItsRules

open Sys2Proof.Machine Sys2Proof.Safety

/-- Settles O21, by cases on what the step does; what a cell reads as changes only where it is written. -/
theorem bufferChangesOnlyAtItsRules : Obligations.BufferChangesOnlyAtItsRules := by
  unfold Obligations.BufferChangesOnlyAtItsRules
  intro s t hstep
  cases step_stepEffect hstep with
  | keeps ts rs => exact ⟨absurd rfl, fun _ => absurd rfl⟩
  | writesVal v => exact ⟨absurd rfl, fun _ => absurd rfl⟩
  | writesLen n idle turn => exact ⟨fun _ => .inr (.inl ⟨idle, turn⟩), fun _ => absurd rfl⟩
  | writesCell i b idle cellExists turn =>
    refine ⟨absurd rfl, fun j hj => .inr (.inl ?_)⟩
    rw [State.readBuf_writeBuf] at hj ⊢
    split at hj
    case isTrue hji =>
      subst hji
      rw [if_pos rfl]
      exact ⟨idle, cellExists, turn⟩
    case isFalse => exact absurd rfl hj
  | issues c => exact ⟨absurd rfl, fun _ => absurd rfl⟩
  | completes t busy turn effect =>
    rcases effect.buffer with ⟨hlen, hcells⟩ | ⟨hcells, latched⟩
    · exact ⟨absurd hlen, fun i => absurd (hcells i)⟩
    · refine ⟨fun _ => .inr (.inr ⟨busy, turn, latched⟩), fun i hi => .inr (.inr ⟨busy, turn, ?_, latched⟩)⟩
      exact Nat.lt_of_not_le fun hle => hi (hcells i hle)
  | resets turn => exact ⟨fun _ => .inl ⟨rfl, .inl turn⟩, fun i => absurd ((atTurn s).readBuf_hardReset i)⟩
  | powersUp turn => exact ⟨fun _ => .inl ⟨rfl, .inr turn⟩, fun _ _ => .inl turn⟩

end Sys2Proof.Proofs.BufferChangesOnlyAtItsRules

namespace Sys2Proof.Proofs.StatusChangesOnlyAtTheHandshake

open Sys2Proof.Machine Sys2Proof.Safety

/-- Settles O22, by cases on what the step does. -/
theorem statusChangesOnlyAtTheHandshake : Obligations.StatusChangesOnlyAtTheHandshake := by
  unfold Obligations.StatusChangesOnlyAtTheHandshake
  intro s t hstep changed
  cases step_stepEffect hstep with
  | keeps ts rs => exact absurd rfl changed
  | writesVal v => exact absurd rfl changed
  | writesLen n => exact absurd rfl changed
  | writesCell i b => exact absurd rfl changed
  | issues c idle turn => exact .inl ⟨idle, ⟨c, turn⟩, rfl⟩
  | completes t busy turn effect =>
    obtain ⟨_, _, _, hbusy, hdone⟩ := effect.frame
    exact .inr (.inl ⟨busy, turn, hbusy, hdone⟩)
  | resets turn => exact .inr (.inr ⟨.inl turn, rfl⟩)
  | powersUp turn => exact .inr (.inr ⟨.inr turn, rfl⟩)

end Sys2Proof.Proofs.StatusChangesOnlyAtTheHandshake
end

section
/-! PROOFS. The codec's turn and Reset (R41, R42). -/

namespace Sys2Proof.Proofs.StepRunsLatchedCommand

open Sys2Proof.Machine Sys2Proof.Safety

/-- Settles O5: the codec's step is its turn, and that is `exec` of the latched command. -/
theorem stepRunsLatchedCommand : Obligations.StepRunsLatchedCommand := by
  unfold Obligations.StepRunsLatchedCommand
  intro s i next busy hd
  rw [step_of_codecNext next]
  exact codecTurn_of_command busy hd

end Sys2Proof.Proofs.StepRunsLatchedCommand

namespace Sys2Proof.Proofs.IdleBlockKeepsAllState

open Sys2Proof.Machine Sys2Proof.Safety

/-- Settles O6: the codec's step is its turn, and that changes nothing while idle. -/
theorem idleBlockKeepsAllState : Obligations.IdleBlockKeepsAllState := by
  unfold Obligations.IdleBlockKeepsAllState
  intro s next idle
  rw [step_of_codecNext next]
  exact codecTurn_of_idle idle

end Sys2Proof.Proofs.IdleBlockKeepsAllState

namespace Sys2Proof.Proofs.ResetAbandonsPendingCommand

open Sys2Proof.Machine Sys2Proof.Safety

/-- Settles O12: the state after Reset is idle, so the codec's next turn is that of an idle block (O6). -/
theorem resetAbandonsPendingCommand : Obligations.ResetAbandonsPendingCommand := by
  unfold Obligations.ResetAbandonsPendingCommand
  intro s turn
  exact ⟨(atTurn s).hardReset, step_of_reset turn, rfl, rfl, rfl, rfl, rfl, rfl, (atTurn s).readBuf_hardReset,
    fun next => IdleBlockKeepsAllState.idleBlockKeepsAllState _ next rfl⟩

end Sys2Proof.Proofs.ResetAbandonsPendingCommand
end

section
/-! PROOFS. The host's transactions as steps (R40, R45, R46), and the byte of `STATUS` (R28). -/

namespace Sys2Proof.Machine

/-- `STATUS` reads as 0x01 right after Issue (R27, R40). -/
theorem Status.issued_word : Status.issued.word = 0x01 := rfl

end Sys2Proof.Machine

namespace Sys2Proof.Safety

open Sys2Proof.Machine

/-- In a state that meets the invariants, `STATUS` while busy is what Issue left (R40, R47 a, b). -/
theorem Inv.status_of_busy {s : State} (h : Inv s) (busy : s.status.busy = true) : s.status = Status.issued := by
  have hdone := h.notBusyAndDone
  obtain ⟨herr, hdv⟩ := h.busyClear busy
  rw [busy, Bool.true_and] at hdone
  cases hs : s.status
  simp_all [Status.issued]

end Sys2Proof.Safety

namespace Sys2Proof.Proofs.StatusWordLayout

open Sys2Proof.Machine

/-- Settles O35: the fields have 64 values together, and the bits of each byte are read off. -/
theorem statusWordLayout : Obligations.StatusWordLayout := by
  unfold Obligations.StatusWordLayout
  rintro ⟨busy, done, dv, err⟩
  revert busy done dv err
  decide

end Sys2Proof.Proofs.StatusWordLayout

namespace Sys2Proof.Proofs.IssueLatchesOrIsDropped

open Sys2Proof.Machine Sys2Proof.Safety

/-- Settles O8: the write of `CMD` is Issue. -/
theorem issueLatchesOrIsDropped : Obligations.IssueLatchesOrIsDropped := by
  unfold Obligations.IssueLatchesOrIsDropped
  intro s c turn
  have hstep : step s = .next ((atTurn s).issue c) := step_of_transaction turn (BusAccess.transaction_wr8_cmd _ c)
  refine ⟨fun idle => ?_, fun busy => ?_⟩ <;> rw [hstep]
  · rw [State.issue_of_idle (s := atTurn s) idle]
    rfl
  · rw [State.issue_of_busy (s := atTurn s) busy]

end Sys2Proof.Proofs.IssueLatchesOrIsDropped

namespace Sys2Proof.Proofs.HostWritesTakeEffectUnlessBusy

open Sys2Proof.Machine Sys2Proof.Safety

/-- A host write that comes while busy is dropped (R45). -/
theorem step_of_hostWrite_busy {s t : State} {a : BusAccess} {tx : Transaction} (busy : s.status.busy = true)
    (turn : s.turns.head? = some (.host a)) (htx : a.transaction s.cfg.bufLen = some tx)
    (hwrite : (atTurn s).perform tx = (atTurn s).hostWrite t) : step s = .next (atTurn s) := by
  rw [step_of_transaction turn htx, hwrite, State.hostWrite_of_busy (s := atTurn s) busy]

/-- A host write that comes while not busy takes effect at once (R45). -/
theorem step_of_hostWrite_idle {s t : State} {a : BusAccess} {tx : Transaction} (idle : s.status.busy = false)
    (turn : s.turns.head? = some (.host a)) (htx : a.transaction s.cfg.bufLen = some tx)
    (hwrite : (atTurn s).perform tx = (atTurn s).hostWrite t) : step s = .next t := by
  rw [step_of_transaction turn htx, hwrite, State.hostWrite_of_idle (s := atTurn s) idle]

/-- Settles O9: each write is the transaction of its access; a write of `CMD` while busy is a dropped Issue (O8). -/
theorem hostWritesTakeEffectUnlessBusy : Obligations.HostWritesTakeEffectUnlessBusy := by
  unfold Obligations.HostWritesTakeEffectUnlessBusy
  refine ⟨fun s a turn busy write => ?_, fun s idle => ⟨fun v turn => ?_, fun n turn => ?_, fun i b hi turn => ?_⟩,
    fun s => ⟨fun v turn => ?_, fun b turn => ?_⟩⟩
  · rcases write with ⟨v, rfl⟩ | ⟨n, rfl⟩ | ⟨i, b, hi, rfl⟩ | ⟨c, rfl⟩
    · exact step_of_hostWrite_busy busy turn (BusAccess.transaction_wr64_val _ v) rfl
    · exact step_of_hostWrite_busy busy turn (BusAccess.transaction_wr8_len _ n) rfl
    · exact step_of_hostWrite_busy busy turn (BusAccess.transaction_wr8_buf b hi) rfl
    · exact (IssueLatchesOrIsDropped.issueLatchesOrIsDropped s c turn).2 busy
  · exact step_of_hostWrite_idle idle turn (BusAccess.transaction_wr64_val _ v) rfl
  · exact step_of_hostWrite_idle idle turn (BusAccess.transaction_wr8_len _ n) rfl
  · exact ⟨Memory.write s.buf i b, step_of_hostWrite_idle idle turn (BusAccess.transaction_wr8_buf b hi) rfl,
      fun j => (atTurn s).readBuf_writeBuf i j b⟩
  · exact step_of_transaction turn (BusAccess.transaction_wr64_res _ v)
  · exact step_of_transaction turn (BusAccess.transaction_wr8_status _ b)

end Sys2Proof.Proofs.HostWritesTakeEffectUnlessBusy

namespace Sys2Proof.Proofs.HostReadsChangeNothing

open Sys2Proof.Machine Sys2Proof.Safety

/-- A transaction that only puts a value on the host's record (R46). -/
theorem step_of_read {s : State} {a : BusAccess} {tx : Transaction} {r : Reading}
    (turn : s.turns.head? = some (.host a)) (htx : a.transaction s.cfg.bufLen = some tx)
    (hread : (atTurn s).perform tx = (atTurn s).logRead r) :
    ∃ t, step s = .next t ∧ sameButReads (atTurn s) t ∧ t.reads = r :: s.reads := by
  refine ⟨(atTurn s).logRead r, ?_, ⟨rfl, rfl, rfl, rfl, rfl, rfl, rfl, rfl, rfl⟩, rfl⟩
  rw [step_of_transaction turn htx, hread]

/-- Settles O10: each read is the transaction of its access; while busy `STATUS` is what Issue left. -/
theorem hostReadsChangeNothing : Obligations.HostReadsChangeNothing := by
  unfold Obligations.HostReadsChangeNothing
  intro s a r turn read
  refine ⟨?_, fun hinv busy => hinv.status_of_busy busy ▸ Status.issued_word⟩
  rcases read with ⟨rfl, rfl⟩ | ⟨rfl, rfl⟩ | ⟨rfl, rfl⟩ | ⟨i, hi, rfl, rfl⟩ | ⟨rfl, rfl⟩ | ⟨rfl, rfl⟩
  · exact step_of_read turn (BusAccess.transaction_rd64_val _) rfl
  · exact step_of_read turn (BusAccess.transaction_rd64_res _) rfl
  · exact step_of_read turn (BusAccess.transaction_rd8_len _) rfl
  · exact step_of_read turn (BusAccess.transaction_rd8_buf hi) rfl
  · exact step_of_read turn (BusAccess.transaction_rd8_status _) rfl
  · exact step_of_read turn (BusAccess.transaction_rd8_cmd _) rfl

end Sys2Proof.Proofs.HostReadsChangeNothing
end

section
/-! PROOFS. The outcome of a command depends on its operands alone (R36, R72). -/

namespace Sys2Proof.Machine

/-- The encoders' sequences fit every block that keeps R8. -/
theorem le_bufLen_of_wellFormed {cfg : Config} {n : Nat} (h : cfg.wellFormed = true) (hn : n ≤ 20) : n ≤ cfg.bufLen := by
  simp only [Config.wellFormed, Bool.and_eq_true, decide_eq_true_eq] at h
  omega

/-- A delivered sequence is read back, and its length and the code do not depend on the state it is delivered in. -/
theorem deliverSequence_agree {s s' : State} {bs : List Byte} (hlen : bs.length ≤ 19) (hcfg : s'.cfg = s.cfg)
    (hwf : s.cfg.wellFormed = true) :
    ∃ t t', deliverSequence s bs = .next t ∧ deliverSequence s' bs = .next t' ∧ t'.len = t.len ∧
      t'.status.err = t.status.err ∧ ∀ i, i < t.len.toNat → t'.readBuf i = t.readBuf i := by
  have hfit : bs.length ≤ s.cfg.bufLen := le_bufLen_of_wellFormed hwf (Nat.le_trans hlen (by omega))
  refine ⟨_, _, deliverSequence_of_le hfit, deliverSequence_of_le (hcfg ▸ hfit), rfl, rfl, fun i hi => ?_⟩
  have hin : i < bs.length := toNat_ofNat_length hlen ▸ hi
  exact (s'.readBuf_writeSeq_inside bs i hin).trans (s.readBuf_writeSeq_inside bs i hin).symm

/-- The operand of a decoder is `LEN` and the cells below it. -/
theorem State.seqOperand_congr {s s' : State} (hcfg : s'.cfg = s.cfg) (hlen : s'.len = s.len)
    (hcells : ∀ i, i < s.len.toNat → s'.readBuf i = s.readBuf i) : s'.seqOperand = s.seqOperand := by
  simp only [State.seqOperand, hcfg, hlen, State.readSeq_congr hcells]

/-- The code of a decoder, and its result where there is one, depend on its operand alone. -/
theorem State.decodeWith_agree {s s' : State} (h : s'.seqOperand = s.seqOperand) (f : List Byte → Option Decoded) :
    (s'.decodeWith f).status.err = (s.decodeWith f).status.err ∧
      ((s.decodeWith f).status.err = 0 → (s'.decodeWith f).res = (s.decodeWith f).res) := by
  simp only [State.decodeWith, h]
  rcases s.seqOperand.bind f with _ | v | k
  · exact ⟨rfl, fun he => absurd he (by decide : errInvalidLength ≠ 0)⟩
  · exact ⟨rfl, fun _ => rfl⟩
  · exact ⟨rfl, fun he => absurd he k.code_ne_zero⟩

end Sys2Proof.Machine

namespace Sys2Proof.Proofs.OutcomeDependsOnOperandsAlone

open Sys2Proof.Machine

/-- Settles O34: the encoders by what is delivered, the decoders by their operand, CHKD by its nibble. -/
theorem outcomeDependsOnOperandsAlone : Obligations.OutcomeDependsOnOperandsAlone := by
  unfold Obligations.OutcomeDependsOnOperandsAlone
  intro s s' m n hcfg hwf
  refine ⟨fun hval => ?_, fun hlen hcells => ?_, ?_⟩
  · obtain ⟨t, t', ht, ht', hzoned⟩ := deliverSequence_agree (encodeZoned_length_range s.val).2 hcfg hwf
    obtain ⟨u, u', hu, hu', hpacked⟩ :=
      deliverSequence_agree (Nat.le_trans (encodePacked_length_range s.val).2 (by omega)) hcfg hwf
    rw [← hval] at ht' hu'
    exact ⟨t, t', u, u', ht, ht', hu, hu', hzoned.1, hzoned.2.1, hzoned.2.2, hpacked⟩
  · have hoperand := State.seqOperand_congr hcfg hlen hcells
    obtain ⟨herrZ, hresZ⟩ := State.decodeWith_agree hoperand decodeZoned
    exact ⟨_, _, _, _, rfl, rfl, rfl, rfl, herrZ, hresZ, State.decodeWith_agree hoperand decodePacked⟩
  · exact ⟨_, _, rfl, rfl, rfl, rfl⟩

end Sys2Proof.Proofs.OutcomeDependsOnOperandsAlone
end

section
/-! PROOFS. The address map in both directions (R60, R62, R105): a well-formed transaction is read back from its access, and what
lies outside the map is no transaction. -/

namespace Sys2Proof.Machine

/-- A well-formed transaction is read back from the access that carries it. -/
theorem Transaction.transaction_access {bufLen : Nat} {tx : Transaction} (h : tx.wellFormed bufLen = true) :
    tx.access.transaction bufLen = some tx := by
  cases tx with
  | hwBuf i b => exact BusAccess.transaction_wr8_buf b (of_decide_eq_true h)
  | hrBuf i => exact BusAccess.transaction_rd8_buf (of_decide_eq_true h)
  | _ => rfl

/-- No cell lies below `BUF[0]` or from `BUF[BUFLEN]` on (R62). -/
theorem bufCellAt_eq_none {bufLen off : Nat} (h : off < 0x20 ∨ 0x20 + bufLen ≤ off) : bufCellAt bufLen off = none := by
  refine Option.eq_none_iff_forall_ne_some.mpr fun i hi => ?_
  obtain ⟨hlt, rfl⟩ := (bufCellAt_eq_some_iff _ _ _).mp hi
  omega

/-- `VAL` and `RES` are the only locations of 64 bits (R62). -/
theorem BusAccess.transaction_wr64_eq_none {off : Nat} (bufLen : Nat) (v : Word) (h : off ≠ 0x00 ∧ off ≠ 0x08) :
    (BusAccess.wr64 off v).transaction bufLen = none := by
  simp [BusAccess.transaction, h]

theorem BusAccess.transaction_rd64_eq_none {off : Nat} (bufLen : Nat) (h : off ≠ 0x00 ∧ off ≠ 0x08) :
    (BusAccess.rd64 off).transaction bufLen = none := by
  simp [BusAccess.transaction, h]

/-- The offsets at which no location of 8 bits lies: below `CMD`, between `LEN` and `BUF[0]`, and from `BUF[BUFLEN]` on (R62). -/
def outsideByteMap (bufLen off : Nat) : Prop := off < 0x10 ∨ (0x13 ≤ off ∧ off < 0x20) ∨ 0x20 + bufLen ≤ off

theorem BusAccess.transaction_wr8_eq_none {bufLen off : Nat} (b : Byte) (h : outsideByteMap bufLen off) :
    (BusAccess.wr8 off b).transaction bufLen = none := by
  unfold outsideByteMap at h
  rw [BusAccess.transaction_wr8_other b (by omega), bufCellAt_eq_none (by omega), Option.map_none]

theorem BusAccess.transaction_rd8_eq_none {bufLen off : Nat} (h : outsideByteMap bufLen off) :
    (BusAccess.rd8 off).transaction bufLen = none := by
  unfold outsideByteMap at h
  rw [BusAccess.transaction_rd8_other (by omega), bufCellAt_eq_none (by omega), Option.map_none]

/-- The step of a host access that is no transaction is refused with its offset (U11). -/
theorem step_of_no_transaction {s : State} {a : BusAccess} (h : s.turns.head? = some (.host a))
    (hnone : a.transaction s.cfg.bufLen = none) : step s = .refused (.notATransaction a.offset) :=
  (step_of_head h).trans (hostTurn_of_none hnone)

end Sys2Proof.Machine

namespace Sys2Proof.Proofs.AddressMapIsExact

open Sys2Proof.Machine

/-- Settles O4: the map is `Transaction.access` itself, and reading an access back is its inverse. -/
theorem addressMapIsExact : Obligations.AddressMapIsExact := by
  unfold Obligations.AddressMapIsExact
  refine ⟨fun v n b c i => ?_, fun _ _ => Transaction.transaction_access, fun _ _ _ => BusAccess.access_of_transaction⟩
  exact ⟨rfl, rfl, rfl, rfl, rfl, rfl, rfl, rfl, rfl, rfl, rfl, rfl⟩

end Sys2Proof.Proofs.AddressMapIsExact

namespace Sys2Proof.Proofs.AccessOutsideTheMapIsRefused

open Sys2Proof.Machine

/-- Settles O11: each listed access is no transaction. -/
theorem accessOutsideTheMapIsRefused : Obligations.AccessOutsideTheMapIsRefused := by
  unfold Obligations.AccessOutsideTheMapIsRefused
  intro s a turn outside
  refine step_of_no_transaction turn ?_
  rcases outside with ⟨bits, off, rfl⟩ | ⟨off, v, hoff, rfl | rfl⟩ | ⟨off, b, hoff, rfl | rfl⟩
  · rfl
  · exact BusAccess.transaction_wr64_eq_none _ v hoff
  · exact BusAccess.transaction_rd64_eq_none _ hoff
  · exact BusAccess.transaction_wr8_eq_none b hoff
  · exact BusAccess.transaction_rd8_eq_none hoff

end Sys2Proof.Proofs.AccessOutsideTheMapIsRefused
end

section
/-! PROOFS. Every turn but a refused access answers a next state on an instance that keeps R8. -/

namespace Sys2Proof.Machine

/-- Every command completes: the sequences of the encoders fit the buffer, and the other commands cannot stop (R72, R260). -/
theorem exec_progress {s : State} (hcfg : s.cfg.wellFormed = true) (i : Instr) : ∃ t, exec i s = .next t := by
  cases i with
  | encz n =>
    have hlen := (encodeZoned_length_range s.val).2
    have hfit : (encodeZoned s.val).length ≤ s.cfg.bufLen := le_bufLen_of_wellFormed hcfg (by omega)
    exact ⟨_, deliverSequence_of_le hfit⟩
  | encp n =>
    have hlen := (encodePacked_length_range s.val).2
    have hfit : (encodePacked s.val).length ≤ s.cfg.bufLen := le_bufLen_of_wellFormed hcfg (by omega)
    exact ⟨_, deliverSequence_of_le hfit⟩
  | decz n => exact ⟨_, rfl⟩
  | decp n => exact ⟨_, rfl⟩
  | chkd n => exact ⟨_, rfl⟩

/-- The codec's turn answers a next state, idle or busy, whatever word is latched (R41, R267, R277). -/
theorem codecTurn_progress {s : State} (hcfg : s.cfg.wellFormed = true) : ∃ t, codecTurn s = .next t := by
  cases busy : s.status.busy with
  | false => exact ⟨s, codecTurn_of_idle busy⟩
  | true =>
    cases hd : decode s.cur with
    | command i => exact codecTurn_of_command busy hd ▸ exec_progress hcfg i
    | illegal e => exact ⟨_, codecTurn_of_illegal busy hd⟩

end Sys2Proof.Machine

namespace Sys2Proof.Proofs.StepStopsOnlyOnRefusedAccess

open Sys2Proof.Machine Sys2Proof.Safety

/-- The step of the codec, scheduled or left alone, answers a next state. -/
theorem step_progress_of_codecNext {s : State} (hcfg : s.cfg.wellFormed = true) (next : CodecNext s) :
    ∃ t, step s = .next t :=
  step_of_codecNext next ▸ codecTurn_progress (s := atTurn s) hcfg

/-- Settles O19, by cases on the turn at hand. -/
theorem stepStopsOnlyOnRefusedAccess : Obligations.StepStopsOnlyOnRefusedAccess := by
  unfold Obligations.StepStopsOnlyOnRefusedAccess
  intro s hinv
  cases turn : s.turns.head? with
  | none => exact .inl (step_progress_of_codecNext hinv.cfgOk (.inl (List.head?_eq_none_iff.mp turn)))
  | some tn =>
    cases tn with
    | codec => exact .inl (step_progress_of_codecNext hinv.cfgOk (.inr turn))
    | host a =>
      cases htx : a.transaction s.cfg.bufLen with
      | some tx => exact .inl ⟨_, step_of_transaction turn htx⟩
      | none => exact .inr ⟨a, rfl, htx, step_of_no_transaction turn htx⟩
    | wait k => exact .inl ⟨_, step_of_head turn⟩
    | reset => exact .inl ⟨_, step_of_reset turn⟩
    | powerUp => exact .inl ⟨_, step_of_head turn⟩

end Sys2Proof.Proofs.StepStopsOnlyOnRefusedAccess
end

section
/-! PROOFS. The command word field by field (R90 to R94): what the decoder reads from `byteOf`, and that it inverts the encoder. -/

namespace Sys2Proof

open Machine (hi lo byteOf)

/-! ### The fields of a word -/

@[simp] theorem nibField_byteOf (h l : Nibble) : nibField (byteOf h l) = h := Machine.hi_byteOf h l

@[simp] theorem zField_byteOf (h l : Nibble) : zField (byteOf h l) = l.getLsbD 3 := by
  revert h l
  decide

@[simp] theorem opField_byteOf (h l : Nibble) : opField (byteOf h l) = l.extractLsb' 0 3 := by
  revert h l
  decide

/-- The low nibble is `Z` above `OP` (R90). -/
theorem lo_toNat_eq_zField_opField (c : Byte) : (lo c).toNat = (zField c).toNat * 8 + (opField c).toNat := by
  revert c
  decide

/-- `c & 0x0F` is the low nibble (R94). -/
theorem and_lowMask_toNat (c : Byte) : (c &&& 0x0F).toNat = (lo c).toNat := by
  rw [Machine.lo_toNat, BitVec.toNat_and]
  exact Nat.and_two_pow_sub_one_eq_mod c.toNat 4

/-- A command's opcode is 1 to 5 (R91). -/
theorem opcodeOf_range (i : Instr) : 1 ≤ (opcodeOf i).toNat ∧ (opcodeOf i).toNat ≤ 5 := by
  cases i <;> simp [opcodeOf]

/-! ### The decoder and the encoder -/

/-- The decoder reads a command back from its word, the nibble at any value. -/
@[simp] theorem decode_encode (i : Instr) : decode (encode i) = .command i := by
  cases i <;> simp [decode, encode, nibOf, opcodeOf]

/-- A decoded command has the word's high nibble and its opcode is the low one. -/
theorem nibOf_opcodeOf_of_decode {c : Byte} {i : Instr} (h : decode c = .command i) :
    nibOf i = hi c ∧ opcodeOf i = lo c := by
  have hlo := lo_toNat_eq_zField_opField c
  unfold decode at h
  split at h
  case isTrue => cases h
  case isFalse hz =>
    rw [Bool.not_eq_true] at hz
    simp only [hz, Bool.toNat_false, Nat.zero_mul, Nat.zero_add] at hlo
    split at h <;> cases h
    all_goals
      rename_i hop
      exact ⟨rfl, BitVec.eq_of_toNat_eq (hlo.trans hop).symm⟩

/-- A word decodes to a command exactly when it is the word of that command. -/
theorem decode_eq_command_iff (c : Byte) (i : Instr) : decode c = .command i ↔ encode i = c := by
  constructor
  · intro h
    obtain ⟨hnib, hop⟩ := nibOf_opcodeOf_of_decode h
    rw [encode, hnib, hop, Machine.byteOf_hi_lo]
  · rintro rfl
    exact decode_encode i

/-- The low nibble selects the command, and the high nibble is carried along (R94). -/
theorem decode_of_lo {c : Byte} (i : Instr) (hnib : nibOf i = hi c) (hop : (lo c).toNat = (opcodeOf i).toNat) :
    decode c = .command i := by
  rw [decode_eq_command_iff, encode, hnib, ← BitVec.eq_of_toNat_eq hop, Machine.byteOf_hi_lo]

/-- The same, with the low nibble as the mask leaves it (R94). -/
theorem decode_of_and_lowMask {c : Byte} (i : Instr) (hnib : nibOf i = hi c)
    (hop : c &&& 0x0F = (opcodeOf i).setWidth 8) : decode c = .command i := by
  refine decode_of_lo i hnib ?_
  rw [← and_lowMask_toNat, hop, BitVec.toNat_setWidth_of_le (by decide)]

/-- A word is legal exactly when its low nibble is 1 to 5 (R94). -/
theorem isCommand_decode_iff (c : Byte) : (decode c).isCommand = true ↔ 1 ≤ (lo c).toNat ∧ (lo c).toNat ≤ 5 := by
  constructor
  · intro h
    cases hd : decode c with
    | command i => exact (nibOf_opcodeOf_of_decode hd).2 ▸ opcodeOf_range i
    | illegal e => simp [hd, DecodedWord.isCommand] at h
  · intro h
    have hop : (lo c).toNat = 1 ∨ (lo c).toNat = 2 ∨ (lo c).toNat = 3 ∨ (lo c).toNat = 4 ∨ (lo c).toNat = 5 := by omega
    rcases hop with hop | hop | hop | hop | hop
    · rw [decode_of_lo (.encz (hi c)) rfl hop]; rfl
    · rw [decode_of_lo (.decz (hi c)) rfl hop]; rfl
    · rw [decode_of_lo (.encp (hi c)) rfl hop]; rfl
    · rw [decode_of_lo (.decp (hi c)) rfl hop]; rfl
    · rw [decode_of_lo (.chkd (hi c)) rfl hop]; rfl

/-- A word that is not legal is illegal for a reason. -/
theorem exists_illegal_of_isCommand_ne_true {d : DecodedWord} (h : d.isCommand ≠ true) : ∃ e, d = .illegal e := by
  cases d with
  | command i => exact absurd rfl h
  | illegal e => exact ⟨e, rfl⟩

/-- The legal words counted: 1 to 5 in each row of 16 (R94). -/
theorem length_legal_words : ((List.range 256).filter fun n => (decode (BitVec.ofNat 8 n)).isCommand).length = 80 := by
  have hlegal : ∀ n ∈ List.range 256,
      (decode (BitVec.ofNat 8 n)).isCommand = decide (1 ≤ n % 16 ∧ n % 16 ≤ 5) := by
    intro n hn
    have hmod : n % 256 = n := Nat.mod_eq_of_lt (List.mem_range.mp hn)
    rw [Bool.eq_iff_iff, isCommand_decode_iff, decide_eq_true_iff, Machine.lo_toNat, BitVec.toNat_ofNat, hmod]
  rw [List.filter_congr hlegal]
  decide

end Sys2Proof

namespace Sys2Proof.Proofs.DecodeAndEncodeAgree

/-- Settles O1: `decode` and `encode` are inverse to each other, and every nibble is well-formed. -/
theorem decodeAndEncodeAgree : Obligations.DecodeAndEncodeAgree := by
  unfold Obligations.DecodeAndEncodeAgree
  refine ⟨fun i _ => decode_encode i, fun c i h => ⟨?_, (decode_eq_command_iff c i).mp h⟩⟩
  cases i <;> rfl

end Sys2Proof.Proofs.DecodeAndEncodeAgree

namespace Sys2Proof.Proofs.DecodeOfWrittenWords

/-- Settles O2: the first seven are the words of their commands; the fields of the reserved four are read off. -/
theorem decodeOfWrittenWords : Obligations.DecodeOfWrittenWords := by
  unfold Obligations.DecodeOfWrittenWords
  exact ⟨decode_encode (.encz 0), decode_encode (.encz 15), decode_encode (.decz 0), decode_encode (.encp 0),
    decode_encode (.decp 0), decode_encode (.chkd 9), decode_encode (.chkd 10), by decide⟩

end Sys2Proof.Proofs.DecodeOfWrittenWords

namespace Sys2Proof.Proofs.DecodeByLowNibble

open Sys2Proof.Machine

/-- Settles O3: each opcode by its command, the rest because they are no opcode. -/
theorem decodeByLowNibble : Obligations.DecodeByLowNibble := by
  unfold Obligations.DecodeByLowNibble
  refine ⟨fun c => ?_, length_legal_words⟩
  refine ⟨decode_of_and_lowMask (.encz (hi c)) rfl, decode_of_and_lowMask (.decz (hi c)) rfl,
    decode_of_and_lowMask (.encp (hi c)) rfl, decode_of_and_lowMask (.decp (hi c)) rfl,
    decode_of_and_lowMask (.chkd (hi c)) rfl, fun h => exists_illegal_of_isCommand_ne_true fun legal => ?_⟩
  rw [isCommand_decode_iff, ← and_lowMask_toNat] at legal
  rcases h with hzero | hlarge
  · rw [hzero] at legal
    exact absurd legal.1 (by decide)
  · omega

end Sys2Proof.Proofs.DecodeByLowNibble
end

section
/-! PROOFS. One poll of `wait` (R106). -/

namespace Sys2Proof.Machine

open Sys2Proof.Safety

/-- The poll that finds `DONE = 1` is the last (R106). -/
theorem waitTurn_of_done {s : State} (k : Nat) (h : s.status.done = true) : waitTurn k s = s.perform .hrStatus := by
  simp [waitTurn, h]

/-- Otherwise the last of the polls lets the codec move before the next one (log 13). -/
theorem waitTurn_zero_of_not_done {s : State} (h : s.status.done = false) :
    waitTurn 0 s = (s.perform .hrStatus).setTurns (.codec :: .wait 0 :: s.turns) := by
  simp [waitTurn, h]

/-- Any other poll is followed by the next (log 13). -/
theorem waitTurn_succ_of_not_done {s : State} (k : Nat) (h : s.status.done = false) :
    waitTurn (k + 1) s = (s.perform .hrStatus).setTurns (.wait k :: s.turns) := by
  simp [waitTurn, h]

/-- A poll changes nothing of the block and records what it read (R46, R106). -/
theorem waitTurn_frame (k : Nat) (s : State) :
    sameBlock s (waitTurn k s) ∧ (waitTurn k s).reads = .status s.status.word :: s.reads := by
  obtain ⟨ts, hwait⟩ := waitTurn_eq k s
  rw [hwait]
  exact ⟨⟨rfl, rfl, rfl, rfl, rfl, rfl, rfl, rfl⟩, rfl⟩

end Sys2Proof.Machine

namespace Sys2Proof.Proofs.WaitPollsUntilDone

open Sys2Proof.Machine Sys2Proof.Safety

/-- Settles O15: the frame of a poll; bit 1 of `STATUS` is `DONE` (O35), which with the polls left gives the schedule. -/
theorem waitPollsUntilDone : Obligations.WaitPollsUntilDone := by
  unfold Obligations.WaitPollsUntilDone
  intro s k turn
  obtain ⟨hblock, hreads⟩ := waitTurn_frame k (atTurn s)
  obtain ⟨_, hbit, _⟩ := StatusWordLayout.statusWordLayout s.status
  refine ⟨waitTurn k (atTurn s), step_of_head turn, hblock, hreads, fun hdone => ?_, fun hdone => ?_⟩ <;>
    rw [hbit] at hdone
  · rw [waitTurn_of_done (s := atTurn s) k hdone]
    rfl
  · cases k with
    | zero => rw [waitTurn_zero_of_not_done (s := atTurn s) hdone]; rfl
    | succ k => rw [waitTurn_succ_of_not_done (s := atTurn s) k hdone]; rfl

end Sys2Proof.Proofs.WaitPollsUntilDone
end

section
/-! PROOFS. What the commands of format `C` do, said without their nibble (R92). -/

namespace Sys2Proof.Machine

theorem exec_encz (n : Nibble) (s : State) : exec (.encz n) s = deliverSequence s (encodeZoned s.valOperand) := rfl
theorem exec_decz (n : Nibble) (s : State) : exec (.decz n) s = .next (s.decodeWith decodeZoned) := rfl
theorem exec_encp (n : Nibble) (s : State) : exec (.encp n) s = deliverSequence s (encodePacked s.valOperand) := rfl
theorem exec_decp (n : Nibble) (s : State) : exec (.decp n) s = .next (s.decodeWith decodePacked) := rfl

end Sys2Proof.Machine

namespace Sys2Proof.Proofs.FormatCIgnoresNib

open Sys2Proof.Machine

/-- Settles O30: what each command does does not mention its nibble. -/
theorem formatCIgnoresNib : Obligations.FormatCIgnoresNib := by
  unfold Obligations.FormatCIgnoresNib
  intro s m n
  simp only [exec_encz, exec_decz, exec_encp, exec_decp, and_self]

end Sys2Proof.Proofs.FormatCIgnoresNib
end

section
/-! PROOFS. The digit test (R131) and the validator command (R132). -/

namespace Sys2Proof.Machine

/-- The gate equation of R131 computes the digit test. -/
theorem isDigit_eq_gate (n : Nibble) : isDigit n = isDigitGate n := by
  revert n
  decide

theorem exec_chkd (n : Nibble) (s : State) :
    exec (.chkd n) s = .next ((s.setStatus (s.status.withDv (isDigit n))).complete errNone) := rfl

end Sys2Proof.Machine

namespace Sys2Proof.Proofs.IsDigitMeansAtMostNine

open Sys2Proof.Machine

/-- Settles O36: the test by its definition, the gate equation over the 16 nibbles. -/
theorem isDigitMeansAtMostNine : Obligations.IsDigitMeansAtMostNine := by
  unfold Obligations.IsDigitMeansAtMostNine
  exact fun n => ⟨isDigit_iff n, isDigit_eq_gate n⟩

end Sys2Proof.Proofs.IsDigitMeansAtMostNine

namespace Sys2Proof.Proofs.ChkdTestsItsNibble

open Sys2Proof.Machine

/-- Settles O29: CHKD writes `DV` and completes with no error, which leaves no field of `STATUS` as it was. -/
theorem chkdTestsItsNibble : Obligations.ChkdTestsItsNibble := by
  unfold Obligations.ChkdTestsItsNibble
  intro s n
  rw [exec_chkd]
  rfl

end Sys2Proof.Proofs.ChkdTestsItsNibble
end

section
/-! PROOFS. The sign and the magnitude of a 64-bit value (R133, R134). -/

namespace Sys2Proof.Machine

theorem isNeg_iff (v : Word) : isNeg v = true ↔ v.toInt < 0 := by simp [isNeg]

theorem isNeg_eq_false_iff (v : Word) : isNeg v = false ↔ 0 ≤ v.toInt := by simp [isNeg]

/-- The sign is bit 63 (R134). -/
theorem isNeg_eq_getLsbD (v : Word) : isNeg v = v.getLsbD 63 := by
  rw [← BitVec.msb_eq_getLsbD_last v, Bool.eq_iff_iff, isNeg_iff, BitVec.toInt_neg_iff, BitVec.msb_eq_true_iff_two_mul_ge]

theorem mag_of_neg {v : Word} (h : v.toInt < 0) : (mag v : Int) = -v.toInt := Int.ofNat_natAbs_of_nonpos (Int.le_of_lt h)

theorem mag_of_nonneg {v : Word} (h : 0 ≤ v.toInt) : (mag v : Int) = v.toInt := Int.natAbs_of_nonneg h

/-- The hardware form of the magnitude (R133): the two's complement of a negative value, read without sign. -/
theorem mag_eq_unsigned (v : Word) : mag v = if v.getLsbD 63 = true then (~~~v + 1).toNat else v.toNat := by
  have hint : v.toInt = if isNeg v = true then (v.toNat : Int) - (2 ^ 64 : Nat) else (v.toNat : Int) := by
    rw [isNeg_eq_getLsbD, ← BitVec.msb_eq_getLsbD_last v]
    exact BitVec.toInt_eq_msb_cond v
  have htwos : ~~~v + 1 = -v := (BitVec.neg_eq_not_add v).symm
  rw [← isNeg_eq_getLsbD, htwos, BitVec.toNat_neg]
  cases hneg : isNeg v with
  | true =>
    have hsign := (isNeg_iff v).mp hneg
    have hmag := mag_of_neg hsign
    have hlarge := BitVec.toInt_neg_iff.mp hsign
    rw [if_pos hneg] at hint
    rw [if_pos rfl]
    omega
  | false =>
    have hmag := mag_of_nonneg ((isNeg_eq_false_iff v).mp hneg)
    rw [if_neg (by simp [hneg])] at hint
    rw [if_neg Bool.false_ne_true]
    omega

/-- A value that is not negative has a magnitude of at most 2^63 - 1 (R143). -/
theorem mag_le_int64Max {v : Word} (h : 0 ≤ v.toInt) : mag v ≤ int64Max := by
  have hmag := mag_of_nonneg h
  have hlt := BitVec.two_mul_toInt_lt (x := v)
  simp only [int64Max]
  omega

end Sys2Proof.Machine

namespace Sys2Proof.Proofs.MagnitudeIsExact

open Sys2Proof.Machine

/-- Settles O37: each sign, the range and the hardware form by their lemmas, the most negative value by evaluation. -/
theorem magnitudeIsExact : Obligations.MagnitudeIsExact := by
  unfold Obligations.MagnitudeIsExact
  exact ⟨fun v => ⟨mag_of_nonneg, mag_of_neg, mag_le_maxMagnitude v, mag_eq_unsigned v⟩, by decide⟩

end Sys2Proof.Proofs.MagnitudeIsExact

namespace Sys2Proof.Proofs.SignMarkersFollowTheSign

open Sys2Proof.Machine

/-- Settles O38: both markers are chosen by `isNeg`, which is `sint(v) < 0`. -/
theorem signMarkersFollowTheSign : Obligations.SignMarkersFollowTheSign := by
  unfold Obligations.SignMarkersFollowTheSign
  refine ⟨fun v => ⟨isNeg_iff v, isNeg_eq_getLsbD v, ?_, ?_⟩, by decide⟩
  · simp only [zonedSign, isNeg_iff]
  · simp only [packedSign, isNeg_iff]

end Sys2Proof.Proofs.SignMarkersFollowTheSign
end

section
/-! PROOFS. `Digits` by its recursion on the quotient by ten (R135), `DigitsValue` by the digits still to come (R136), and how the
two undo each other (R143). -/

namespace Sys2Proof.Machine

/-! ### The number of digits and each digit -/

/-- Induction along the digits of a number: one digit, or one more than the quotient by ten has (R135). -/
theorem digits_induction {P : Nat → Prop} (one : ∀ m, m < 10 → P m) (more : ∀ m, 10 ≤ m → P (m / 10) → P m) (m : Nat) : P m := by
  induction m using Nat.strongRecOn with
  | ind m ih =>
    by_cases h : m < 10
    · exact one m h
    · exact more m (Nat.le_of_not_lt h) (ih (m / 10) (by omega))

theorem digits_zero : digits 0 = [0] := digits_of_lt_ten (by decide)

/-- One more digit behind the digits of a positive number (R135). -/
theorem digits_mul_ten_add {m d : Nat} (hm : m ≠ 0) (hd : d ≤ 9) : digits (m * 10 + d) = digits m ++ [d] := by
  have hquot : (m * 10 + d) / 10 = m := by omega
  have hrem : (m * 10 + d) % 10 = d := by omega
  rw [digits_of_ten_le (by omega), hquot, hrem]

/-- A number lies below ten to the number of its digits (R135). -/
theorem lt_pow_numDigits (m : Nat) : m < 10 ^ numDigits m := by
  induction m using digits_induction with
  | one m h =>
    rw [numDigits_of_lt_ten h]
    exact h
  | more m h ih =>
    rw [numDigits_of_ten_le h, Nat.pow_succ]
    omega

/-- A positive number has no leading zero: it is at least the power of ten of its first digit (R135). -/
theorem pow_numDigits_le {m : Nat} (h : 1 ≤ m) : 10 ^ (numDigits m - 1) ≤ m := by
  induction m using digits_induction with
  | one m hlt =>
    rw [numDigits_of_lt_ten hlt]
    exact h
  | more m hle ih =>
    have hquot := ih (by omega)
    obtain ⟨k, hk⟩ : ∃ k, numDigits (m / 10) = k + 1 := ⟨_, (Nat.sub_add_cancel (numDigits_pos _)).symm⟩
    rw [hk, Nat.add_sub_cancel] at hquot
    rw [numDigits_of_ten_le hle, hk, Nat.add_sub_cancel, Nat.pow_succ]
    omega

/-- Digit `i` from the front stands for the power of ten that the digits behind it leave (R135). -/
theorem digits_getElem? {m i : Nat} (h : i < numDigits m) :
    (digits m)[i]? = some (m / 10 ^ (numDigits m - 1 - i) % 10) := by
  induction m using digits_induction with
  | one m hlt =>
    rw [numDigits_of_lt_ten hlt] at h ⊢
    obtain rfl : i = 0 := by omega
    rw [digits_of_lt_ten hlt, Nat.sub_self, Nat.pow_zero, Nat.div_one, Nat.mod_eq_of_lt hlt]
    rfl
  | more m hle ih =>
    rw [numDigits_of_ten_le hle] at h ⊢
    rw [digits_of_ten_le hle, Nat.add_sub_cancel]
    by_cases hi : i < numDigits (m / 10)
    · have hexp : numDigits (m / 10) - i = (numDigits (m / 10) - 1 - i) + 1 := by omega
      rw [List.getElem?_append_left hi, ih hi, hexp, Nat.pow_succ', Nat.div_div_eq_div_mul]
    · obtain rfl : i = numDigits (m / 10) := by omega
      rw [Nat.sub_self, Nat.pow_zero, Nat.div_one]
      exact List.getElem?_concat_length

/-! ### The value of a digit list -/

/-- What `DigitsValue` goes on to from `m`, when the digits `ds` are still to come (R136). -/
def digitsValueFrom (m : Nat) (ds : List Nat) : Nat := ds.foldl (fun acc d => acc * 10 + d) m

theorem digitsValue_eq_from_zero (ds : List Nat) : digitsValue ds = digitsValueFrom 0 ds := rfl

@[simp] theorem digitsValueFrom_nil (m : Nat) : digitsValueFrom m [] = m := rfl

theorem digitsValueFrom_cons (m d : Nat) (ds : List Nat) : digitsValueFrom m (d :: ds) = digitsValueFrom (m * 10 + d) ds := rfl

theorem digitsValue_eq_from_head (d : Nat) (ds : List Nat) : digitsValue (d :: ds) = digitsValueFrom d ds := by
  rw [digitsValue_eq_from_zero, digitsValueFrom_cons, Nat.zero_mul, Nat.zero_add]

/-- The value so far moves up by one place for each digit to come (R136). -/
theorem digitsValueFrom_eq (m : Nat) (ds : List Nat) : digitsValueFrom m ds = m * 10 ^ ds.length + digitsValue ds := by
  induction ds generalizing m with
  | nil => simp
  | cons d ds ih =>
    rw [digitsValueFrom_cons, ih, digitsValue_eq_from_head, ih d, List.length_cons, Nat.pow_succ', Nat.add_mul, Nat.mul_assoc,
      Nat.add_assoc]

/-- A digit in front counts for the power of ten of the digits behind it (R136). -/
theorem digitsValue_cons (d : Nat) (ds : List Nat) : digitsValue (d :: ds) = d * 10 ^ ds.length + digitsValue ds := by
  rw [digitsValue_eq_from_head, digitsValueFrom_eq]

/-- A zero in front changes nothing (R139). -/
@[simp] theorem digitsValue_zero_cons (ds : List Nat) : digitsValue (0 :: ds) = digitsValue ds := digitsValue_eq_from_head 0 ds

/-- Neither does any number of them (R139). -/
theorem digitsValue_replicate_zero_append (k : Nat) (ds : List Nat) :
    digitsValue (List.replicate k 0 ++ ds) = digitsValue ds := by
  induction k with
  | zero => rfl
  | succ k ih => rw [List.replicate_succ, List.cons_append, digitsValue_zero_cons, ih]

/-! ### Digits and values undo each other -/

/-- The first law of R143: the digits of a number have that value. -/
theorem digitsValue_digits (m : Nat) : digitsValue (digits m) = m := by
  induction m using digits_induction with
  | one m h => rw [digits_of_lt_ten h, digitsValue_eq_from_head, digitsValueFrom_nil]
  | more m h ih =>
    rw [digits_of_ten_le h, digitsValue_snoc, ih]
    omega

/-- Digits to come are put behind the digits of a positive number (R135, R136). -/
theorem digits_digitsValueFrom {m : Nat} (hm : m ≠ 0) {ds : List Nat} (hle : ∀ d ∈ ds, d ≤ 9) :
    digits (digitsValueFrom m ds) = digits m ++ ds := by
  induction ds generalizing m with
  | nil => rw [digitsValueFrom_nil, List.append_nil]
  | cons d ds ih =>
    obtain ⟨hd, hds⟩ := List.forall_mem_cons.mp hle
    rw [digitsValueFrom_cons, ih (by omega) hds, digits_mul_ten_add hm hd, List.append_assoc, List.singleton_append]

/-- The second law of R143: a digit list with no leading zero is the digit list of its value. -/
theorem digits_digitsValue {d : Nat} {ds : List Nat} (hd : d ≠ 0) (hle : ∀ e ∈ d :: ds, e ≤ 9) :
    digits (digitsValue (d :: ds)) = d :: ds := by
  obtain ⟨hd9, hds⟩ := List.forall_mem_cons.mp hle
  rw [digitsValue_eq_from_head, digits_digitsValueFrom hd hds, digits_of_lt_ten (Nat.lt_succ_of_le hd9), List.singleton_append]

end Sys2Proof.Machine

namespace Sys2Proof.Proofs.DigitsAreTheDecimalDigits

open Sys2Proof.Machine

/-- Settles O39: the powers of ten that enclose a number, and its digits one by one. -/
theorem digitsAreTheDecimalDigits : Obligations.DigitsAreTheDecimalDigits := by
  unfold Obligations.DigitsAreTheDecimalDigits
  exact ⟨digits_zero, numDigits_of_lt_ten (by decide), fun m hm => ⟨numDigits_pos m, pow_numDigits_le hm, lt_pow_numDigits m⟩,
    fun m i => digits_getElem?, fun m => rfl, fun m hm => ⟨numDigits_pos m, numDigits_le_of_lt_pow (k := 18) (by omega)⟩⟩

end Sys2Proof.Proofs.DigitsAreTheDecimalDigits

namespace Sys2Proof.Proofs.DigitsValueIsPositional

open Sys2Proof.Machine

/-- Settles O40: one digit in front, and any number of zeros. -/
theorem digitsValueIsPositional : Obligations.DigitsValueIsPositional := by
  unfold Obligations.DigitsValueIsPositional
  exact ⟨fun ds d => digitsValue_cons d ds, digitsValue_nil, digitsValue_replicate_zero_append⟩

end Sys2Proof.Proofs.DigitsValueIsPositional
end

section
/-! PROOFS. `ToInt64` case by case (R137), and the bounded-width accumulator that computes it (R141). -/

namespace Sys2Proof.Machine

/-! ### The range test -/

theorem toInt64_neg_of_gt {m : Nat} (h : maxMagnitude < m) : toInt64 true m = .err .overflow := by
  simp [toInt64, h]

theorem toInt64_neg_of_le {m : Nat} (h : m ≤ maxMagnitude) : toInt64 true m = .ok (BitVec.ofInt 64 (-(m : Int))) := by
  simp [toInt64, h]

theorem toInt64_pos_of_gt {m : Nat} (h : int64Max < m) : toInt64 false m = .err .overflow := by
  simp [toInt64, h]

theorem toInt64_pos_of_le {m : Nat} (h : m ≤ int64Max) : toInt64 false m = .ok (BitVec.ofInt 64 (m : Int)) := by
  simp [toInt64, h]

/-- The third law of R143: the sign and the magnitude of a value give it back. -/
theorem toInt64_isNeg_mag (v : Word) : toInt64 (isNeg v) (mag v) = .ok v := by
  cases hneg : isNeg v with
  | true =>
    rw [toInt64_neg_of_le (mag_le_maxMagnitude v), mag_of_neg ((isNeg_iff v).mp hneg), Int.neg_neg, BitVec.ofInt_toInt]
  | false =>
    have hsign := (isNeg_eq_false_iff v).mp hneg
    rw [toInt64_pos_of_le (mag_le_int64Max hsign), mag_of_nonneg hsign, BitVec.ofInt_toInt]

/-! ### The bounded-width accumulator -/

/-- The sticky bit stays, and the rest is kept (R141). -/
theorem Accumulator.push_of_big {a : Accumulator} (h : a.big = true) (d : Nat) : a.push d = { a with big := true } := by
  simp [Accumulator.push, h]

/-- The digit that takes the value above 2^63 sets the sticky bit (R141). -/
theorem Accumulator.push_of_gt {a : Accumulator} {d : Nat} (h : maxMagnitude < a.acc.toNat * 10 + d) :
    a.push d = { a with big := true } := by
  simp [Accumulator.push, h]

/-- Any other digit goes into the 64 bits (R141). -/
theorem Accumulator.push_of_le {a : Accumulator} {d : Nat} (hbig : a.big = false)
    (h : a.acc.toNat * 10 + d ≤ maxMagnitude) : a.push d = { a with acc := BitVec.ofNat 64 (a.acc.toNat * 10 + d) } := by
  simp [Accumulator.push, hbig, h]

/-- What the accumulator says of the exact value `m` of the digits it has seen (R141): the sticky bit is 1 exactly when `m`
exceeds 2^63, and until then the 64 bits hold `m`. -/
def Accumulator.Represents (a : Accumulator) (m : Nat) : Prop :=
  (a.big = true ↔ maxMagnitude < m) ∧ (a.big = false → a.acc.toNat = m)

/-- One more digit keeps that (R141). A value above 2^63 stays above, whatever digits follow. -/
theorem Accumulator.Represents.push {a : Accumulator} {m : Nat} (h : a.Represents m) (d : Nat) :
    (a.push d).Represents (m * 10 + d) := by
  obtain ⟨hbig, hacc⟩ := h
  cases hb : a.big with
  | true =>
    have hm := hbig.mp hb
    rw [push_of_big hb]
    exact ⟨iff_of_true rfl (by omega), fun hf => by cases hf⟩
  | false =>
    obtain rfl := hacc hb
    by_cases hgt : maxMagnitude < a.acc.toNat * 10 + d
    · rw [push_of_gt hgt]
      exact ⟨iff_of_true rfl hgt, fun hf => by cases hf⟩
    · have hle := Nat.not_lt.mp hgt
      rw [push_of_le hb hle]
      exact ⟨iff_of_false (by simp [hb]) hgt, fun _ => Nat.mod_eq_of_lt (Nat.lt_of_le_of_lt hle (by decide))⟩

/-- So does any list of digits to come (R136, R141). -/
theorem Accumulator.Represents.foldl_push {a : Accumulator} {m : Nat} (h : a.Represents m) (ds : List Nat) :
    (ds.foldl Accumulator.push a).Represents (digitsValueFrom m ds) := by
  induction ds generalizing a m with
  | nil => exact h
  | cons d ds ih => exact ih (h.push d)

/-- The accumulator after a list of digits represents its value (R136, R141). -/
theorem accumulate_represents (ds : List Nat) : (accumulate ds).Represents (digitsValue ds) :=
  Accumulator.Represents.foldl_push ⟨by decide, fun _ => rfl⟩ ds

/-- The range test on the accumulator is `ToInt64` of the value it represents (R137, R141). -/
theorem Accumulator.toInt64_of_represents {a : Accumulator} {m : Nat} (h : a.Represents m) (neg : Bool) :
    a.toInt64 neg = Machine.toInt64 neg m := by
  obtain ⟨hbig, hacc⟩ := h
  cases hb : a.big with
  | true =>
    have hm := hbig.mp hb
    cases neg with
    | true => simp [Accumulator.toInt64, hb, toInt64_neg_of_gt hm]
    | false => simp [Accumulator.toInt64, hb, toInt64_pos_of_gt (Nat.lt_of_succ_lt hm)]
  | false =>
    obtain rfl := hacc hb
    have hle : a.acc.toNat ≤ maxMagnitude := Nat.not_lt.mp (mt hbig.mpr (by simp [hb]))
    cases neg with
    | true => simp [Accumulator.toInt64, hb, toInt64_neg_of_le hle, BitVec.ofInt_neg]
    | false =>
      by_cases hmax : a.acc.toNat = maxMagnitude
      · simp [Accumulator.toInt64, hmax, toInt64_pos_of_gt]
      · have hle' : a.acc.toNat ≤ int64Max := Nat.le_of_lt_succ (Nat.lt_of_le_of_ne hle hmax)
        simp [Accumulator.toInt64, hb, hmax, toInt64_pos_of_le hle']

end Sys2Proof.Machine

namespace Sys2Proof.Proofs.DigitLaws

open Sys2Proof.Machine

/-- Settles O42: the three laws, and the bounds on the magnitude of each sign. -/
theorem digitLaws : Obligations.DigitLaws := by
  unfold Obligations.DigitLaws
  refine ⟨digitsValue_digits, fun ds hle hlead => ?_, fun v => ⟨toInt64_isNeg_mag v, fun hneg => ?_, fun hpos => ?_⟩⟩
  · rcases hlead with rfl | ⟨d, hhead, hd⟩
    · rfl
    · obtain ⟨ds, rfl⟩ := List.head?_eq_some_iff.mp hhead
      exact digits_digitsValue hd hle
  · have hsign := (isNeg_iff v).mp hneg
    have hmag := mag_of_neg hsign
    exact ⟨by omega, mag_le_maxMagnitude v⟩
  · exact mag_le_int64Max ((isNeg_eq_false_iff v).mp hpos)

end Sys2Proof.Proofs.DigitLaws

namespace Sys2Proof.Proofs.BoundedAccumulatorIsEquivalent

open Sys2Proof.Machine

/-- Settles O43: the accumulator represents the value of every list, of digits or not. -/
theorem boundedAccumulatorIsEquivalent : Obligations.BoundedAccumulatorIsEquivalent := by
  unfold Obligations.BoundedAccumulatorIsEquivalent
  intro ds _
  obtain ⟨hbig, hacc⟩ := accumulate_represents ds
  exact ⟨hbig.symm, hacc, Accumulator.toInt64_of_represents (accumulate_represents ds)⟩

end Sys2Proof.Proofs.BoundedAccumulatorIsEquivalent
end

section
/-! PROOFS. Leading zero digits in front of a decoder's input (R139, R186, R236), and negative zero (R138). -/

namespace Sys2Proof.Machine

/-- What one more byte `b` in front of a non-empty sequence does not change, any number of them does not change. -/
theorem apply_replicate_append {β : Type} {f : List Byte → β} {b : Byte}
    (hcons : ∀ bs : List Byte, bs ≠ [] → f (b :: bs) = f bs) (k : Nat) {bs : List Byte} (h : bs ≠ []) :
    f (List.replicate k b ++ bs) = f bs := by
  induction k with
  | zero => rfl
  | succ k ih =>
    rw [List.replicate_succ, List.cons_append, hcons _ (List.append_ne_nil_of_right_ne_nil _ h), ih]

/-! ### Zoned -/

/-- A zoned zero digit in front is no violation (R180). -/
theorem zonedViolation_zero_cons {bs : List Byte} (h : bs ≠ []) : zonedViolation (0x30 :: bs) = zonedViolation bs := by
  cases bs with
  | nil => exact absurd rfl h
  | cons b bs => rfl

theorem zonedDigits_zero_cons (bs : List Byte) : zonedDigits (0x30 :: bs) = 0 :: zonedDigits bs := rfl

/-- A zoned zero digit in front changes no answer (R139, R186). -/
theorem decodeZoned_zero_cons {bs : List Byte} (h : bs ≠ []) : decodeZoned (0x30 :: bs) = decodeZoned bs := by
  rw [decodeZoned, List.getLast?_cons_of_ne_nil h, zonedViolation_zero_cons h, zonedDigits_zero_cons, digitsValue_zero_cons,
    decodeZoned]

/-- The same for any number of them (R186). -/
theorem decodeZoned_replicate_zero_append (k : Nat) {bs : List Byte} (h : bs ≠ []) :
    decodeZoned (List.replicate k 0x30 ++ bs) = decodeZoned bs :=
  apply_replicate_append (fun _ => decodeZoned_zero_cons) k h

/-! ### Packed -/

/-- The digit positions of a longer sequence: both nibbles of its first byte, then those of the rest (R230). -/
theorem nibbles_cons_dropLast (b : Byte) {bs : List Byte} (h : bs ≠ []) :
    (nibbles (b :: bs)).dropLast = hi b :: lo b :: (nibbles bs).dropLast := by
  cases bs with
  | nil => exact absurd rfl h
  | cons _ _ => rfl

/-- A packed zero byte in front is no violation (R230). -/
theorem packedViolation_zero_cons {bs : List Byte} (h : bs ≠ []) :
    packedViolation (0x00 :: bs) = packedViolation bs := by
  rw [packedViolation, nibbles_cons_dropLast _ h]
  rfl

theorem packedDigits_zero_cons {bs : List Byte} (h : bs ≠ []) :
    packedDigits (0x00 :: bs) = 0 :: 0 :: packedDigits bs := by
  rw [packedDigits, nibbles_cons_dropLast _ h]
  rfl

/-- A packed zero byte in front changes no answer (R139, R236). -/
theorem decodePacked_zero_cons {bs : List Byte} (h : bs ≠ []) : decodePacked (0x00 :: bs) = decodePacked bs := by
  rw [decodePacked, List.getLast?_cons_of_ne_nil h, packedViolation_zero_cons h, packedDigits_zero_cons h,
    digitsValue_zero_cons, digitsValue_zero_cons, decodePacked]

/-- The same for any number of them (R236). -/
theorem decodePacked_replicate_zero_append (k : Nat) {bs : List Byte} (h : bs ≠ []) :
    decodePacked (List.replicate k 0x00 ++ bs) = decodePacked bs :=
  apply_replicate_append (fun _ => decodePacked_zero_cons) k h

end Sys2Proof.Machine

namespace Sys2Proof.Proofs.LeadingZerosChangeNothing

open Sys2Proof.Machine

/-- Settles O58: both decoders, one zero at a time. -/
theorem leadingZerosChangeNothing : Obligations.LeadingZerosChangeNothing := by
  unfold Obligations.LeadingZerosChangeNothing
  exact fun k bs h => ⟨decodeZoned_replicate_zero_append k h, decodePacked_replicate_zero_append k h⟩

end Sys2Proof.Proofs.LeadingZerosChangeNothing

namespace Sys2Proof.Proofs.ToInt64Bounds

open Sys2Proof.Machine

/-- Settles O41: each side of each bound; negative zero of any length decodes as the one-byte one does. -/
theorem toInt64Bounds : Obligations.ToInt64Bounds := by
  unfold Obligations.ToInt64Bounds
  refine ⟨fun m => ⟨toInt64_neg_of_gt, fun hm => ⟨_, toInt64_neg_of_le hm, ?_⟩, toInt64_pos_of_gt,
    fun hm => ⟨_, toInt64_pos_of_le hm, ?_⟩⟩, rfl, fun k => ⟨?_, ?_⟩⟩
  · exact BitVec.toInt_ofInt_eq_self (by decide) (by omega) (by omega)
  · exact BitVec.toInt_ofInt_eq_self (by decide) (by omega) (by omega)
  · rw [decodeZoned_replicate_zero_append k (by decide)]
    decide
  · rw [decodePacked_replicate_zero_append k (by decide)]
    decide

end Sys2Proof.Proofs.ToInt64Bounds
end

section
/-! PROOFS. Zoned byte sequences (R161, R180), cut into the bytes before the last and the last: the bytes of the encoding, and
that the decoder accepts exactly the bytes of digits under a sign marker and reads digits and sign back. -/

namespace Sys2Proof.Machine

/-! ### The bytes of a digit string -/

/-- A sequence that is not empty has a last element, behind all the others. -/
theorem exists_eq_concat_of_ne_nil {α : Type} {l : List α} (h : l ≠ []) : ∃ l' b, l = l' ++ [b] :=
  ⟨l.dropLast, l.getLast h, (List.dropLast_concat_getLast h).symm⟩

/-- The byte of a digit under a high nibble (R161). -/
def digitByte (high : Nibble) (d : Nat) : Byte := byteOf high (digitNibble d)

@[simp] theorem hi_digitByte (high : Nibble) (d : Nat) : hi (digitByte high d) = high := hi_byteOf _ _

theorem lo_digitByte_toNat (high : Nibble) {d : Nat} (hd : d ≤ 9) : (lo (digitByte high d)).toNat = d := by
  rw [digitByte, lo_byteOf, digitNibble_toNat hd]

theorem digitByte_toNat (high : Nibble) {d : Nat} (hd : d ≤ 9) : (digitByte high d).toNat = high.toNat * 16 + d := by
  rw [digitByte, byteOf_toNat, digitNibble_toNat hd]

/-- A byte is the byte of the digit in its low nibble. -/
theorem digitByte_hi_lo (b : Byte) : digitByte (hi b) (lo b).toNat = b := by
  rw [digitByte, digitNibble, BitVec.ofNat_toNat, BitVec.setWidth_eq, byteOf_hi_lo]

theorem zonedBytes_cons (sign : Nibble) (d : Nat) {ds : List Nat} (h : ds ≠ []) :
    zonedBytes sign (d :: ds) = digitByte zoneMarker d :: zonedBytes sign ds := by
  cases ds with
  | nil => exact absurd rfl h
  | cons _ _ => rfl

/-- Every digit before the last goes under the zone marker, the last one under the sign (R161). -/
theorem zonedBytes_concat (sign : Nibble) (ds : List Nat) (d : Nat) :
    zonedBytes sign (ds ++ [d]) = ds.map (digitByte zoneMarker) ++ [digitByte sign d] := by
  induction ds with
  | nil => rfl
  | cons e es ih => rw [List.cons_append, zonedBytes_cons sign e (List.concat_ne_nil d es), ih, List.map_cons, List.cons_append]

/-! ### The digits of a byte sequence -/

theorem zonedDigits_concat (bs : List Byte) (b : Byte) : zonedDigits (bs ++ [b]) = zonedDigits bs ++ [(lo b).toNat] :=
  List.map_append

theorem zonedDigits_map_digitByte (high : Nibble) {ds : List Nat} (h : ∀ d ∈ ds, d ≤ 9) :
    zonedDigits (ds.map (digitByte high)) = ds := by
  rw [zonedDigits, List.map_map]
  exact (List.map_congr_left fun d hd => lo_digitByte_toNat high (h d hd)).trans (List.map_id ds)

/-- The digits of the bytes of a digit string are that string (R161, R180). -/
theorem zonedDigits_zonedBytes (sign : Nibble) {ds : List Nat} (h : ∀ d ∈ ds, d ≤ 9) :
    zonedDigits (zonedBytes sign ds) = ds := by
  by_cases hnil : ds = []
  · subst hnil
    rfl
  · obtain ⟨es, d, rfl⟩ := exists_eq_concat_of_ne_nil hnil
    obtain ⟨hes, hd⟩ := List.forall_mem_append.mp h
    rw [zonedBytes_concat, zonedDigits_concat, zonedDigits_map_digitByte zoneMarker hes,
      lo_digitByte_toNat sign (hd d List.mem_cons_self)]

/-! ### What the decoder accepts -/

/-- Before the last byte, phase 1 of R180 asks for the zone marker and a digit. -/
theorem zonedViolation_cons_eq_none_iff (b : Byte) {bs : List Byte} (h : bs ≠ []) :
    zonedViolation (b :: bs) = none ↔ (hi b = zoneMarker ∧ (lo b).toNat ≤ 9) ∧ zonedViolation bs = none := by
  cases bs with
  | nil => exact absurd rfl h
  | cons c cs =>
    by_cases hzone : hi b = 0x3#4
    · by_cases hdigit : (lo b).toNat ≤ 9 <;> simp [zonedViolation, isDigit, hzone, hdigit]
    · simp [zonedViolation, hzone]

/-- Phase 1 of R180 finds nothing exactly when every byte before the last is zone marker and digit, and the last has a digit. -/
theorem zonedViolation_concat_eq_none_iff (bs : List Byte) (b : Byte) :
    zonedViolation (bs ++ [b]) = none ↔ (∀ c ∈ bs, hi c = zoneMarker ∧ (lo c).toNat ≤ 9) ∧ (lo b).toNat ≤ 9 := by
  induction bs with
  | nil => simp [zonedViolation, isDigit]
  | cons c cs ih =>
    rw [List.cons_append, zonedViolation_cons_eq_none_iff c (List.concat_ne_nil b cs), ih, List.forall_mem_cons, ← and_assoc]

/-- The sign marker of a zoned sequence, true for negative (R6, R134). -/
def zonedMarker (neg : Bool) : Nibble := if neg then zonedNegative else zonedPositive

/-- Phase 2 of R180 finds a sign exactly when its marker stands in the high nibble of the last byte. -/
theorem zonedSignOf_eq_some_iff (b : Byte) (neg : Bool) : zonedSignOf b = some neg ↔ hi b = zonedMarker neg := by
  unfold zonedSignOf
  generalize hi b = h
  revert h neg
  decide

/-- The decoder reads back what was put into bytes: the answer is the range test of the sign and the value (R180). -/
theorem decodeZoned_zonedBytes (neg : Bool) {ds : List Nat} (hne : ds ≠ []) (h : ∀ d ∈ ds, d ≤ 9) :
    decodeZoned (zonedBytes (zonedMarker neg) ds) = some (toInt64 neg (digitsValue ds)) := by
  have hdigits := zonedDigits_zonedBytes (zonedMarker neg) h
  obtain ⟨es, d, rfl⟩ := exists_eq_concat_of_ne_nil hne
  obtain ⟨hes, hd⟩ := List.forall_mem_append.mp h
  rw [zonedBytes_concat] at hdigits ⊢
  have hviolation : zonedViolation (es.map (digitByte zoneMarker) ++ [digitByte (zonedMarker neg) d]) = none := by
    rw [zonedViolation_concat_eq_none_iff, lo_digitByte_toNat _ (hd d List.mem_cons_self)]
    refine ⟨List.forall_mem_map.mpr fun e he => ⟨hi_digitByte _ _, ?_⟩, hd d List.mem_cons_self⟩
    rw [lo_digitByte_toNat _ (hes e he)]
    exact hes e he
  have hsign : zonedSignOf (digitByte (zonedMarker neg) d) = some neg :=
    (zonedSignOf_eq_some_iff _ _).mpr (hi_digitByte _ _)
  simp only [decodeZoned, List.getLast?_concat, hviolation, hsign, hdigits]

/-- An accepted sequence is the bytes of its digits under the marker of its sign, and these make up the value (R180, R189). -/
theorem zonedBytes_of_decodeZoned_ok {bs : List Byte} {v : Word} (h : decodeZoned bs = some (.ok v)) :
    ∃ neg, bs = zonedBytes (zonedMarker neg) (zonedDigits bs) ∧ (∀ d ∈ zonedDigits bs, d ≤ 9) ∧
      toInt64 neg (digitsValue (zonedDigits bs)) = .ok v := by
  have hne : bs ≠ [] := by
    rintro rfl
    cases h
  obtain ⟨cs, b, rfl⟩ := exists_eq_concat_of_ne_nil hne
  simp only [decodeZoned, List.getLast?_concat] at h
  split at h
  case h_1 => cases h
  case h_2 hviolation =>
    split at h
    case h_1 => cases h
    case h_2 neg hsign =>
      obtain ⟨hcs, hb⟩ := (zonedViolation_concat_eq_none_iff cs b).mp hviolation
      have hzone : (zonedDigits cs).map (digitByte zoneMarker) = cs := by
        rw [zonedDigits, List.map_map]
        refine (List.map_congr_left fun c hc => ?_).trans (List.map_id cs)
        exact (hcs c hc).1 ▸ digitByte_hi_lo c
      refine ⟨neg, ?_, ?_, Option.some.inj h⟩
      · rw [zonedDigits_concat, zonedBytes_concat, hzone, ← (zonedSignOf_eq_some_iff b neg).mp hsign, digitByte_hi_lo]
      · rw [zonedDigits_concat, List.forall_mem_append, List.forall_mem_singleton]
        exact ⟨List.forall_mem_map.mpr fun c hc => (hcs c hc).2, hb⟩

end Sys2Proof.Machine
end

section
/-! PROOFS. The digits of a magnitude have no leading zero (R135), and what a value says of the sign and the magnitude it was made
from (R137). -/

namespace Sys2Proof.Machine

/-- The digits of a positive number do not begin with zero (R135). -/
theorem digits_head_ne_zero {m : Nat} (h : m ≠ 0) : ∃ d, (digits m).head? = some d ∧ d ≠ 0 := by
  induction m using digits_induction with
  | one m hlt => exact ⟨m, by rw [digits_of_lt_ten hlt, List.head?_singleton], h⟩
  | more m hle ih =>
    obtain ⟨d, hd, hne⟩ := ih (by omega)
    exact ⟨d, by rw [digits_of_ten_le hle, List.head?_append, hd, Option.some_or], hne⟩

/-- A digit list of one digit or with no leading zero is the digit list of its value (R143). -/
theorem digits_digitsValue_of_canonical {ds : List Nat} (hle : ∀ d ∈ ds, d ≤ 9)
    (h : ds.length = 1 ∨ ∃ d, ds.head? = some d ∧ d ≠ 0) : digits (digitsValue ds) = ds := by
  rcases h with hlen | ⟨d, hhead, hd⟩
  · obtain ⟨d, rfl⟩ := List.length_eq_one_iff.mp hlen
    rw [digitsValue_eq_from_head, digitsValueFrom_nil]
    exact digits_of_lt_ten (Nat.lt_succ_of_le (hle d List.mem_cons_self))
  · obtain ⟨es, rfl⟩ := List.head?_eq_some_iff.mp hhead
    exact digits_digitsValue hd hle

/-- A value in range is the magnitude under the sign (R137). -/
theorem toInt_of_toInt64_ok {neg : Bool} {m : Nat} {v : Word} (h : toInt64 neg m = .ok v) :
    v.toInt = if neg then -(m : Int) else m := by
  cases neg with
  | true =>
    by_cases hm : m ≤ maxMagnitude
    · cases (toInt64_neg_of_le hm).symm.trans h
      simp only [maxMagnitude] at hm
      exact BitVec.toInt_ofInt_eq_self (by decide) (by omega) (by omega)
    · cases (toInt64_neg_of_gt (Nat.lt_of_not_le hm)).symm.trans h
  | false =>
    by_cases hm : m ≤ int64Max
    · cases (toInt64_pos_of_le hm).symm.trans h
      simp only [int64Max] at hm
      exact BitVec.toInt_ofInt_eq_self (by decide) (by omega) (by omega)
    · cases (toInt64_pos_of_gt (Nat.lt_of_not_le hm)).symm.trans h

/-- The magnitude is read back from the value (R133, R137). -/
theorem mag_of_toInt64_ok {neg : Bool} {m : Nat} {v : Word} (h : toInt64 neg m = .ok v) : mag v = m := by
  have hint := toInt_of_toInt64_ok h
  cases neg <;> simp [mag, hint]

/-- The sign is read back from the value, but for negative zero (R134, R138). -/
theorem isNeg_of_toInt64_ok {neg : Bool} {m : Nat} {v : Word} (h : toInt64 neg m = .ok v) (hm : neg = true → m ≠ 0) :
    isNeg v = neg := by
  have hint := toInt_of_toInt64_ok h
  cases neg with
  | true =>
    have hpos := hm rfl
    rw [if_pos rfl] at hint
    exact (isNeg_iff v).mpr (by omega)
  | false =>
    rw [if_neg Bool.false_ne_true] at hint
    exact (isNeg_eq_false_iff v).mpr (by omega)

end Sys2Proof.Machine
end

section
/-! PROOFS. The zoned encoder: each byte, the shape of the output, and the round trip (R161, R163, R164). -/

namespace Sys2Proof.Machine

theorem encodeZoned_eq (v : Word) : encodeZoned v = zonedBytes (zonedMarker (isNeg v)) (digits (mag v)) := rfl

/-- The marker of a value is 7 or 3 by the sign (R134). -/
theorem zonedMarker_isNeg_toNat (v : Word) : (zonedMarker (isNeg v)).toNat = if v.toInt < 0 then 0x7 else 0x3 := by
  simp only [zonedMarker, isNeg_iff]
  split <;> rfl

/-- The digits of an encoding are those of the magnitude (R161). -/
theorem zonedDigits_encodeZoned (v : Word) : zonedDigits (encodeZoned v) = digits (mag v) :=
  zonedDigits_zonedBytes _ (digits_le_nine _)

/-- The decoder undoes the encoder (R164). -/
theorem decodeZoned_encodeZoned (v : Word) : decodeZoned (encodeZoned v) = some (.ok v) := by
  rw [encodeZoned_eq, decodeZoned_zonedBytes _ (digits_ne_nil _) (digits_le_nine _), digitsValue_digits, toInt64_isNeg_mag]

/-- A byte before the last is the zone marker over a digit of the magnitude (R161). -/
theorem encodeZoned_getElem? (v : Word) {i : Nat} (h : i + 1 < (encodeZoned v).length) :
    ∃ d, d ≤ 9 ∧ (digits (mag v))[i]? = some d ∧ (encodeZoned v)[i]? = some (digitByte zoneMarker d) := by
  obtain ⟨es, d, hds⟩ := exists_eq_concat_of_ne_nil (digits_ne_nil (mag v))
  have hi : i < es.length := by
    rw [encodeZoned_length, numDigits, hds, List.length_append] at h
    exact Nat.lt_of_succ_lt_succ h
  have hdigit : (digits (mag v))[i]? = some es[i] := by
    rw [hds, List.getElem?_append_left hi, List.getElem?_eq_getElem hi]
  refine ⟨es[i], digits_le_nine _ _ (List.mem_of_getElem? hdigit), hdigit, ?_⟩
  rw [encodeZoned_eq, hds, zonedBytes_concat, List.getElem?_append_left (by simpa using hi), List.getElem?_map,
    List.getElem?_eq_getElem hi, Option.map_some]

/-- The last byte is the sign marker over the last digit of the magnitude (R161). -/
theorem encodeZoned_getLast? (v : Word) :
    ∃ d, d ≤ 9 ∧ (digits (mag v)).getLast? = some d ∧
      (encodeZoned v).getLast? = some (digitByte (zonedMarker (isNeg v)) d) := by
  obtain ⟨es, d, hds⟩ := exists_eq_concat_of_ne_nil (digits_ne_nil (mag v))
  refine ⟨d, digits_le_nine (mag v) d (by simp [hds]), ?_, ?_⟩
  · rw [hds, List.getLast?_concat]
  · rw [encodeZoned_eq, hds, zonedBytes_concat, List.getLast?_concat]

/-- A nibble is 0 exactly when the digit it stands for is. -/
theorem nibble_toNat_eq_zero_iff (n : Nibble) : n.toNat = 0 ↔ n = 0 := (BitVec.toNat_eq (y := 0#4)).symm

/-- The condition (a) of R165, on the digits and on the bytes. -/
theorem zonedDigits_canonical_iff (bs : List Byte) :
    ((zonedDigits bs).length = 1 ∨ ∃ d, (zonedDigits bs).head? = some d ∧ d ≠ 0) ↔
      (bs.length = 1 ∨ ∃ b, bs.head? = some b ∧ lo b ≠ 0) := by
  rw [zonedDigits, List.length_map, List.head?_map]
  refine or_congr_right ⟨fun ⟨d, hd, hne⟩ => ?_, fun ⟨b, hb, hne⟩ => ?_⟩
  · obtain ⟨b, hb, rfl⟩ := Option.map_eq_some_iff.mp hd
    exact ⟨b, hb, mt (nibble_toNat_eq_zero_iff _).mpr hne⟩
  · exact ⟨_, Option.map_eq_some_iff.mpr ⟨b, hb, rfl⟩, mt (nibble_toNat_eq_zero_iff _).mp hne⟩

/-- No encoding has a leading zero digit, unless it is one byte (R163). -/
theorem encodeZoned_canonical (v : Word) :
    (encodeZoned v).length = 1 ∨ ∃ b, (encodeZoned v).head? = some b ∧ lo b ≠ 0 := by
  rw [← zonedDigits_canonical_iff, zonedDigits_encodeZoned]
  by_cases hzero : mag v = 0
  · exact .inl (by rw [hzero, digits_zero, List.length_singleton])
  · exact .inr (digits_head_ne_zero hzero)

/-- The encoding of a negative value has a nonzero digit, so it is no negative zero (R134, R163). -/
theorem exists_lo_ne_zero_of_isNeg {v : Word} (h : isNeg v = true) : ∃ b ∈ encodeZoned v, lo b ≠ 0 := by
  have hsign := (isNeg_iff v).mp h
  have hmag := mag_of_neg hsign
  obtain ⟨d, hhead, hd⟩ := digits_head_ne_zero (m := mag v) (by omega)
  rw [← zonedDigits_encodeZoned] at hhead
  obtain ⟨b, hb, rfl⟩ := List.mem_map.mp (List.mem_of_head? hhead)
  exact ⟨b, hb, mt (nibble_toNat_eq_zero_iff _).mpr hd⟩

/-- Only a negative value is encoded with the negative marker (R134, R161). -/
theorem isNeg_of_hi_getLast? {v : Word} {b : Byte} (hlast : (encodeZoned v).getLast? = some b) (h : hi b = zonedNegative) :
    isNeg v = true := by
  obtain ⟨d, _, _, hbyte⟩ := encodeZoned_getLast? v
  cases hlast.symm.trans hbyte
  rw [hi_digitByte] at h
  revert h
  cases isNeg v <;> decide

end Sys2Proof.Machine

namespace Sys2Proof.Proofs.EncodeZonedBytes

open Sys2Proof.Machine

/-- Settles O44: a byte before the last, and the last byte, each under its high nibble. -/
theorem encodeZonedBytes : Obligations.EncodeZonedBytes := by
  unfold Obligations.EncodeZonedBytes
  intro v
  obtain ⟨hpos, hle⟩ := encodeZoned_length_range v
  refine ⟨encodeZoned_length v, hpos, hle, fun i hi => ?_, ?_⟩
  · obtain ⟨d, hd, hdigit, hbyte⟩ := encodeZoned_getElem? v hi
    exact ⟨d, _, hdigit, hbyte, digitByte_toNat _ hd⟩
  · obtain ⟨d, hd, hdigit, hbyte⟩ := encodeZoned_getLast? v
    exact ⟨d, _, hdigit, hbyte, by rw [digitByte_toNat _ hd, zonedMarker_isNeg_toNat]⟩

end Sys2Proof.Proofs.EncodeZonedBytes

namespace Sys2Proof.Proofs.EncodeZonedShape

open Sys2Proof.Machine

/-- Settles O45: each byte is a digit under its marker, a magnitude has no leading zero, and `[0x70]`, which decodes to 0, is not
the encoding of 0. -/
theorem encodeZonedShape : Obligations.EncodeZonedShape := by
  unfold Obligations.EncodeZonedShape
  intro v
  refine ⟨fun i b hi hb => ?_, ?_, ?_, fun h => ?_⟩
  · obtain ⟨d, hd, _, hbyte⟩ := encodeZoned_getElem? v hi
    cases hb.symm.trans hbyte
    have hval := digitByte_toNat zoneMarker hd
    have hzone : (zoneMarker : Nibble).toNat = 3 := rfl
    omega
  · obtain ⟨d, hd, _, hbyte⟩ := encodeZoned_getLast? v
    have hval := digitByte_toNat (zonedMarker (isNeg v)) hd
    rw [zonedMarker_isNeg_toNat] at hval
    refine ⟨_, hbyte, fun hsign => ?_, fun hsign => ?_⟩
    · rw [if_neg (Int.not_lt.mpr hsign)] at hval
      omega
    · rw [if_pos hsign] at hval
      omega
  · rcases encodeZoned_canonical v with hone | ⟨b, hb, hlo⟩
    · obtain ⟨b, hb⟩ := List.length_eq_one_iff.mp hone
      exact ⟨b, by rw [hb, List.head?_singleton], .inr hone⟩
    · exact ⟨b, hb, .inl hlo⟩
  · have hzero : decodeZoned (encodeZoned v) = some (.ok 0) := h ▸ by decide
    cases hzero.symm.trans (decodeZoned_encodeZoned v)
    exact absurd h (by decide)

end Sys2Proof.Proofs.EncodeZonedShape

namespace Sys2Proof.Proofs.CanonicalZonedSequences

open Sys2Proof.Machine

/-- Settles O47: an accepted sequence is the bytes of its digits and sign, and these are the digits and the sign of the value
exactly when there is no leading zero and no negative zero. -/
theorem canonicalZonedSequences : Obligations.CanonicalZonedSequences := by
  unfold Obligations.CanonicalZonedSequences
  intro bs v h
  constructor
  · rintro rfl
    refine ⟨encodeZoned_canonical v, fun ⟨hzeros, b, hlast, hmarker⟩ => ?_⟩
    obtain ⟨c, hc, hlo⟩ := exists_lo_ne_zero_of_isNeg (isNeg_of_hi_getLast? hlast hmarker)
    exact hlo (hzeros c hc)
  · rintro ⟨hcanonical, hnegZero⟩
    obtain ⟨neg, hbytes, hdigits, hvalue⟩ := zonedBytes_of_decodeZoned_ok h
    have hcanon := digits_digitsValue_of_canonical hdigits ((zonedDigits_canonical_iff bs).mpr hcanonical)
    have hne : neg = true → digitsValue (zonedDigits bs) ≠ 0 := by
      intro hneg hzero
      rw [hzero, digits_zero] at hcanon
      rw [← hcanon, hneg] at hbytes
      subst hbytes
      exact hnegZero ⟨by decide, _, rfl, by decide⟩
    rw [encodeZoned_eq, isNeg_of_toInt64_ok hvalue hne, mag_of_toInt64_ok hvalue, hcanon, ← hbytes]

end Sys2Proof.Proofs.CanonicalZonedSequences
end

section
/-! PROOFS. ENCZ from start to end (R162), and DECZ after it (R164). -/

namespace Sys2Proof.Machine

/-- `LEN` is the length of a delivered sequence (R162, R212). -/
theorem len_toNat_of_delivered {s t : State} {bs : List Byte} (h : deliverSequence s bs = .next t) (hlen : bs.length ≤ 19) :
    t.len.toNat = bs.length := by
  obtain ⟨_, rfl⟩ := deliverSequence_next h
  exact toNat_ofNat_length hlen

/-- A delivered sequence is the operand of the next decoder (R164, R214). -/
theorem seqOperand_of_delivered {s t : State} {bs : List Byte} (h : deliverSequence s bs = .next t) (hpos : 1 ≤ bs.length)
    (hlen : bs.length ≤ 19) : t.seqOperand = some bs := by
  have hlenOf := len_toNat_of_delivered h hlen
  obtain ⟨hfit, rfl⟩ := deliverSequence_next h
  rw [State.seqOperand_eq_some_iff, hlenOf]
  exact ⟨Nat.ne_of_gt hpos, hfit, s.readSeq_writeSeq bs⟩

/-- A decoder that accepts its operand delivers the value (R181, R231). -/
theorem State.decodeWith_of_ok {s : State} {f : List Byte → Option Decoded} {bs : List Byte} {v : Word}
    (hbs : s.seqOperand = some bs) (hf : f bs = some (.ok v)) : s.decodeWith f = (s.setRes v).complete errNone := by
  simp only [State.decodeWith, hbs, Option.bind_some, hf, State.deliverDecoded]

end Sys2Proof.Machine

namespace Sys2Proof.Proofs.EnczDeliversZonedBytes

open Sys2Proof.Machine

/-- Settles O25: the encoding fits the buffer, its cells are read back and those behind it kept, and the rest is the frame of the
end of an encoder. -/
theorem enczDeliversZonedBytes : Obligations.EnczDeliversZonedBytes := by
  unfold Obligations.EnczDeliversZonedBytes
  intro s nib hcfg
  obtain ⟨hpos, hle⟩ := encodeZoned_length_range s.val
  obtain ⟨t, ht⟩ := exec_progress hcfg (.encz nib)
  have hlen := len_toNat_of_delivered ht hle
  obtain ⟨_, rfl⟩ := deliverSequence_next ht
  refine ⟨_, ht, hpos, hle, hlen, fun i hi => ?_, fun i hi => ?_, rfl, rfl, rfl, rfl, rfl, rfl, rfl, rfl⟩
  · rw [List.getElem?_eq_getElem hi]
    exact congrArg some (s.readBuf_writeSeq_inside _ i hi).symm
  · exact s.readBuf_writeSeq_outside _ i hi

end Sys2Proof.Proofs.EnczDeliversZonedBytes

namespace Sys2Proof.Proofs.ZonedRoundTrip

open Sys2Proof.Machine

/-- Settles O46: the functions by the decoder's answer on the bytes of digits under a marker, the commands because the delivered
encoding is the decoder's operand. -/
theorem zonedRoundTrip : Obligations.ZonedRoundTrip := by
  unfold Obligations.ZonedRoundTrip
  refine ⟨decodeZoned_encodeZoned, fun s m n hcfg => ?_⟩
  obtain ⟨hpos, hle⟩ := encodeZoned_length_range s.val
  obtain ⟨t, ht⟩ := exec_progress hcfg (.encz m)
  have hdecode := State.decodeWith_of_ok (seqOperand_of_delivered ht hpos hle) (decodeZoned_encodeZoned s.val)
  refine ⟨t, (t.setRes s.val).complete errNone, ht, by rw [exec_decz, hdecode], rfl, rfl, ?_⟩
  exact (len_toNat_of_delivered ht hle).trans (encodeZoned_length s.val)

end Sys2Proof.Proofs.ZonedRoundTrip
end

section
/-! PROOFS. `ToInt64` as equivalences: which magnitudes are out of range, and which value stands for one in range (R137). -/

namespace Sys2Proof.Machine

/-- The largest magnitude of each sign (R137). -/
def magnitudeBound (neg : Bool) : Nat := if neg then maxMagnitude else int64Max

/-- `ToInt64` overflows exactly above the bound of the sign (R137). -/
theorem toInt64_eq_overflow_iff (neg : Bool) (m : Nat) : toInt64 neg m = .err .overflow ↔ magnitudeBound neg < m := by
  cases neg <;> simp [toInt64, magnitudeBound]

/-- Up to the bound `ToInt64` answers the one word whose value is the magnitude under the sign (R137). -/
theorem toInt64_eq_ok_iff (neg : Bool) (m : Nat) (v : Word) :
    toInt64 neg m = .ok v ↔ m ≤ magnitudeBound neg ∧ v.toInt = if neg then -(m : Int) else m := by
  constructor
  · intro h
    refine ⟨Nat.not_lt.mp fun hgt => ?_, toInt_of_toInt64_ok h⟩
    cases ((toInt64_eq_overflow_iff neg m).mpr hgt).symm.trans h
  · rintro ⟨hle, hv⟩
    cases hd : toInt64 neg m with
    | ok w => rw [BitVec.eq_of_toInt_eq ((toInt_of_toInt64_ok hd).trans hv.symm)]
    | err k =>
      obtain rfl := toInt64_eq_err hd
      exact absurd ((toInt64_eq_overflow_iff neg m).mp hd) (Nat.not_lt.mpr hle)

end Sys2Proof.Machine
end

section
/-! PROOFS. Phase 1 of the zoned decoder by positions: the violation it finds is the first one in nibble order (R180, R185). -/

namespace Sys2Proof.Machine

/-! ### Faults by position -/

/-- A bad zone at position `i`: the last byte has none (R180). -/
def ZoneFault (bs : List Byte) (i : Nat) (b : Byte) : Prop := i + 1 < bs.length ∧ bs[i]? = some b ∧ hi b ≠ zoneMarker

/-- A bad digit at position `i`, the first fault of its byte (R180, R185). -/
def DigitFault (bs : List Byte) (i : Nat) (b : Byte) : Prop :=
  bs[i]? = some b ∧ 9 < (lo b).toNat ∧ (i + 1 < bs.length → hi b = zoneMarker)

/-- Every byte before position `i` passes both checks of phase 1 (R185). -/
def CleanBefore (bs : List Byte) (i : Nat) : Prop :=
  ∀ j c, j < i → bs[j]? = some c → hi c = zoneMarker ∧ (lo c).toNat ≤ 9

/-- No byte but the last has a bad zone, and none a bad digit (R180). -/
def NoPartFault (bs : List Byte) : Prop :=
  (∀ i b, i + 1 < bs.length → bs[i]? = some b → hi b = zoneMarker) ∧ ∀ b ∈ bs, (lo b).toNat ≤ 9

@[simp] theorem cleanBefore_zero (bs : List Byte) : CleanBefore bs 0 := fun _ _ hj => absurd hj (Nat.not_lt_zero _)

theorem cleanBefore_cons_succ (b : Byte) (bs : List Byte) (i : Nat) :
    CleanBefore (b :: bs) (i + 1) ↔ (hi b = zoneMarker ∧ (lo b).toNat ≤ 9) ∧ CleanBefore bs i := by
  constructor
  · exact fun h => ⟨h 0 b (Nat.succ_pos i) rfl, fun j c hj hc => h (j + 1) c (Nat.succ_lt_succ hj) hc⟩
  · rintro ⟨hb, hbs⟩ (_ | j) c hj hc
    · cases hc
      exact hb
    · exact hbs j c (Nat.lt_of_succ_lt_succ hj) hc

/-- The first fault is at the first byte, or that byte is clean and it is the first fault of the rest. -/
theorem exists_first_fault_cons {fault : List Byte → Nat → Byte → Prop} {b : Byte} {bs : List Byte}
    (hsucc : ∀ i c, fault (b :: bs) (i + 1) c ↔ fault bs i c) :
    (∃ i c, fault (b :: bs) i c ∧ CleanBefore (b :: bs) i) ↔
      (∃ c, fault (b :: bs) 0 c) ∨
        (hi b = zoneMarker ∧ (lo b).toNat ≤ 9) ∧ ∃ i c, fault bs i c ∧ CleanBefore bs i := by
  constructor
  · rintro ⟨_ | i, c, hfault, hclean⟩
    · exact .inl ⟨c, hfault⟩
    · obtain ⟨hb, hbs⟩ := (cleanBefore_cons_succ b bs i).mp hclean
      exact .inr ⟨hb, i, c, (hsucc i c).mp hfault, hbs⟩
  · rintro (⟨c, hfault⟩ | ⟨hb, i, c, hfault, hbs⟩)
    · exact ⟨0, c, hfault, cleanBefore_zero _⟩
    · exact ⟨i + 1, c, (hsucc i c).mpr hfault, (cleanBefore_cons_succ b bs i).mpr ⟨hb, hbs⟩⟩

theorem zoneFault_cons_succ (b : Byte) (bs : List Byte) (i : Nat) (c : Byte) :
    ZoneFault (b :: bs) (i + 1) c ↔ ZoneFault bs i c := by
  simp [ZoneFault]

theorem digitFault_cons_succ (b : Byte) (bs : List Byte) (i : Nat) (c : Byte) :
    DigitFault (b :: bs) (i + 1) c ↔ DigitFault bs i c := by
  simp [DigitFault]

theorem exists_zoneFault_cons_zero (b : Byte) (bs : List Byte) :
    (∃ c, ZoneFault (b :: bs) 0 c) ↔ bs ≠ [] ∧ hi b ≠ zoneMarker := by
  simp [ZoneFault, List.length_pos_iff]

theorem exists_digitFault_cons_zero (b : Byte) (bs : List Byte) :
    (∃ c, DigitFault (b :: bs) 0 c) ↔ 9 < (lo b).toNat ∧ (bs ≠ [] → hi b = zoneMarker) := by
  simp [DigitFault, List.length_pos_iff]

/-! ### What phase 1 finds -/

@[simp] theorem zonedViolation_nil : zonedViolation [] = none := rfl

/-- One byte alone has only its digit checked (R187). -/
theorem zonedViolation_singleton_eq_some_iff (b : Byte) (k : ErrorKind) :
    zonedViolation [b] = some k ↔ 9 < (lo b).toNat ∧ k = .invalidDigitPart := by
  simpa [zonedViolation, isDigit] using fun _ => eq_comm

/-- A byte with more to come has its zone checked, then its digit, then comes the rest (R180). -/
theorem zonedViolation_cons_eq_some_iff (b : Byte) {bs : List Byte} (h : bs ≠ []) (k : ErrorKind) :
    zonedViolation (b :: bs) = some k ↔
      hi b ≠ zoneMarker ∧ k = .invalidZonePart ∨ hi b = zoneMarker ∧ 9 < (lo b).toNat ∧ k = .invalidDigitPart ∨
        (hi b = zoneMarker ∧ (lo b).toNat ≤ 9) ∧ zonedViolation bs = some k := by
  cases bs with
  | nil => exact absurd rfl h
  | cons c cs =>
    by_cases hzone : hi b = 0x3#4
    · by_cases hdigit : (lo b).toNat ≤ 9
      · simp [zonedViolation, isDigit, hzone, hdigit, Nat.not_lt.mpr hdigit]
      · simpa [zonedViolation, isDigit, hzone, hdigit, Nat.lt_of_not_le hdigit] using eq_comm
    · simpa [zonedViolation, hzone] using eq_comm

/-- Phase 1 blames a zone exactly when the first fault is one (R185). -/
theorem zonedViolation_eq_zonePart_iff (bs : List Byte) :
    zonedViolation bs = some .invalidZonePart ↔ ∃ i b, ZoneFault bs i b ∧ CleanBefore bs i := by
  induction bs with
  | nil => simp [ZoneFault]
  | cons b bs ih =>
    rw [exists_first_fault_cons (zoneFault_cons_succ b bs), ← ih, exists_zoneFault_cons_zero]
    by_cases hbs : bs = []
    · subst hbs
      simp [zonedViolation_singleton_eq_some_iff]
    · simp [zonedViolation_cons_eq_some_iff b hbs, hbs]

/-- Phase 1 blames a digit exactly when the first fault is one (R185). -/
theorem zonedViolation_eq_digitPart_iff (bs : List Byte) :
    zonedViolation bs = some .invalidDigitPart ↔ ∃ i b, DigitFault bs i b ∧ CleanBefore bs i := by
  induction bs with
  | nil => simp [DigitFault]
  | cons b bs ih =>
    rw [exists_first_fault_cons (digitFault_cons_succ b bs), ← ih, exists_digitFault_cons_zero]
    by_cases hbs : bs = []
    · subst hbs
      simp [zonedViolation_singleton_eq_some_iff]
    · simp [zonedViolation_cons_eq_some_iff b hbs, hbs, and_comm]

/-- Phase 1 finds nothing but zone and digit faults (R180). -/
theorem zonedViolation_eq_zonePart_or_digitPart {bs : List Byte} {k : ErrorKind} (h : zonedViolation bs = some k) :
    k = .invalidZonePart ∨ k = .invalidDigitPart := by
  induction bs with
  | nil => cases h
  | cons b bs ih =>
    by_cases hbs : bs = []
    · subst hbs
      exact .inr ((zonedViolation_singleton_eq_some_iff b k).mp h).2
    · rcases (zonedViolation_cons_eq_some_iff b hbs k).mp h with ⟨_, hk⟩ | ⟨_, _, hk⟩ | ⟨_, hrest⟩
      · exact .inl hk
      · exact .inr hk
      · exact ih hrest

/-- A property of all bytes before the last, by position and by membership. -/
theorem forall_before_last_concat_iff {P : Byte → Prop} (cs : List Byte) (b : Byte) :
    (∀ i c, i + 1 < (cs ++ [b]).length → (cs ++ [b])[i]? = some c → P c) ↔ ∀ c ∈ cs, P c := by
  constructor
  · intro h c hc
    obtain ⟨i, hi, hget⟩ := List.mem_iff_getElem.mp hc
    refine h i c (by simpa using hi) ?_
    rw [List.getElem?_append_left hi, List.getElem?_eq_getElem hi, hget]
  · intro h i c hi hget
    rw [List.getElem?_append_left (by simpa using hi)] at hget
    exact h c (List.mem_of_getElem? hget)

/-- Phase 1 finds nothing exactly when there is no fault (R180). -/
theorem zonedViolation_eq_none_iff (bs : List Byte) : zonedViolation bs = none ↔ NoPartFault bs := by
  by_cases hbs : bs = []
  · subst hbs
    simp [NoPartFault]
  · obtain ⟨cs, b, rfl⟩ := exists_eq_concat_of_ne_nil hbs
    rw [zonedViolation_concat_eq_none_iff, NoPartFault, forall_before_last_concat_iff, List.forall_mem_append,
      List.forall_mem_singleton, ← and_assoc]
    refine and_congr_left fun _ => ⟨fun h => ?_, fun ⟨hzones, hdigits⟩ c hc => ⟨hzones c hc, hdigits c hc⟩⟩
    exact ⟨fun c hc => (h c hc).1, fun c hc => (h c hc).2⟩

end Sys2Proof.Machine
end

section
/-! PROOFS. Every answer of the zoned decoder with the inputs that get it (R180, R183 to R185, R189). -/

namespace Sys2Proof.Machine

/-- Phase 2 of R180 finds no sign exactly when the high nibble of the last byte is neither marker. -/
theorem zonedSignOf_eq_none_iff (b : Byte) : zonedSignOf b = none ↔ hi b ≠ zonedPositive ∧ hi b ≠ zonedNegative := by
  unfold zonedSignOf
  generalize hi b = h
  revert h
  decide

/-- What phase 1 finds is the answer (R180). -/
theorem decodeZoned_of_violation {bs : List Byte} {k : ErrorKind} (h : zonedViolation bs = some k) :
    decodeZoned bs = some (.err k) := by
  have hne : bs ≠ [] := by
    rintro rfl
    cases h
  obtain ⟨cs, b, rfl⟩ := exists_eq_concat_of_ne_nil hne
  simp only [decodeZoned, List.getLast?_concat, h]

/-- The three phases of R180: the violation that phase 1 finds, else the bad sign, else the range test of sign and magnitude. -/
theorem decodeZoned_eq_some_iff (bs : List Byte) (d : Decoded) :
    decodeZoned bs = some d ↔
      (∃ k, zonedViolation bs = some k ∧ .err k = d) ∨
      NoPartFault bs ∧ ∃ b, bs.getLast? = some b ∧
        (zonedSignOf b = none ∧ .err .invalidSignPart = d ∨
          ∃ neg, zonedSignOf b = some neg ∧ toInt64 neg (digitsValue (zonedDigits bs)) = d) := by
  rw [← zonedViolation_eq_none_iff]
  cases hviolation : zonedViolation bs with
  | some k => simp [decodeZoned_of_violation hviolation]
  | none =>
    cases hlast : bs.getLast? with
    | none => simp [decodeZoned, hlast]
    | some b => cases hsign : zonedSignOf b <;> simp [decodeZoned, hviolation, hlast, hsign, -Bool.exists_bool]

/-- The decoder reports a zone or a digit fault exactly when phase 1 finds it (R180). -/
theorem decodeZoned_eq_violation_iff (bs : List Byte) {k : ErrorKind} (hk : k = .invalidZonePart ∨ k = .invalidDigitPart) :
    decodeZoned bs = some (.err k) ↔ zonedViolation bs = some k := by
  refine ⟨fun h => ?_, decodeZoned_of_violation⟩
  rcases (decodeZoned_eq_some_iff bs _).mp h with ⟨k', hk', heq⟩ | ⟨_, b, _, ⟨_, heq⟩ | ⟨neg, _, heq⟩⟩
  · cases heq
    exact hk'
  · cases heq
    simp at hk
  · rw [toInt64_eq_err heq] at hk
    simp at hk

/-- R189 by nibbles: no fault in the parts, a sign, and the value of sign and magnitude. -/
theorem decodeZoned_eq_ok_iff (bs : List Byte) (v : Word) :
    decodeZoned bs = some (.ok v) ↔
      NoPartFault bs ∧ ∃ b, bs.getLast? = some b ∧
        ∃ neg, hi b = zonedMarker neg ∧ toInt64 neg (digitsValue (zonedDigits bs)) = .ok v := by
  simp [decodeZoned_eq_some_iff, zonedSignOf_eq_some_iff]

/-- The sign is blamed exactly when it is bad and the parts have no fault (R184). -/
theorem decodeZoned_eq_signPart_iff (bs : List Byte) :
    decodeZoned bs = some (.err .invalidSignPart) ↔
      NoPartFault bs ∧ ∃ b, bs.getLast? = some b ∧ hi b ≠ zonedPositive ∧ hi b ≠ zonedNegative := by
  rw [decodeZoned_eq_some_iff]
  constructor
  · rintro (⟨k, hk, heq⟩ | ⟨hparts, b, hlast, ⟨hsign, _⟩ | ⟨neg, _, heq⟩⟩)
    · cases heq
      rcases zonedViolation_eq_zonePart_or_digitPart hk with h | h <;> cases h
    · exact ⟨hparts, b, hlast, (zonedSignOf_eq_none_iff b).mp hsign⟩
    · cases toInt64_eq_err heq
  · rintro ⟨hparts, b, hlast, hsign⟩
    exact .inr ⟨hparts, b, hlast, .inl ⟨(zonedSignOf_eq_none_iff b).mpr hsign, rfl⟩⟩

/-- Overflow is reported exactly when the magnitude is out of range and nothing else is wrong (R140, R183). -/
theorem decodeZoned_eq_overflow_iff (bs : List Byte) :
    decodeZoned bs = some (.err .overflow) ↔
      NoPartFault bs ∧ ∃ b, bs.getLast? = some b ∧
        ∃ neg, hi b = zonedMarker neg ∧ magnitudeBound neg < digitsValue (zonedDigits bs) := by
  rw [decodeZoned_eq_some_iff]
  simp only [← zonedSignOf_eq_some_iff, ← toInt64_eq_overflow_iff]
  constructor
  · rintro (⟨k, hk, heq⟩ | ⟨hparts, b, hlast, ⟨_, heq⟩ | ⟨neg, hsign, heq⟩⟩)
    · cases heq
      rcases zonedViolation_eq_zonePart_or_digitPart hk with h | h <;> cases h
    · cases heq
    · exact ⟨hparts, b, hlast, neg, hsign, heq⟩
  · exact fun ⟨hparts, b, hlast, neg, hsign, heq⟩ => .inr ⟨hparts, b, hlast, .inr ⟨neg, hsign, heq⟩⟩

/-! ### The answers in the words of the rules -/

/-- The byte of a digit under a marker is in the range of ten that the marker begins (R189). -/
theorem byte_range_iff (b : Byte) (marker : Nibble) :
    marker.toNat * 16 ≤ b.toNat ∧ b.toNat ≤ marker.toNat * 16 + 9 ↔ hi b = marker ∧ (lo b).toNat ≤ 9 := by
  rw [BitVec.toNat_eq, hi_toNat, lo_toNat]
  omega

/-- The same beside the range test of the sign and the magnitude (R189). -/
theorem signed_byte_range_iff (b : Byte) (marker : Nibble) (inRange : Prop) :
    (lo b).toNat ≤ 9 ∧ hi b = marker ∧ inRange ↔
      marker.toNat * 16 ≤ b.toNat ∧ b.toNat ≤ marker.toNat * 16 + 9 ∧ inRange := by
  rw [← and_assoc, ← and_assoc, byte_range_iff, and_comm (a := (lo b).toNat ≤ 9)]

end Sys2Proof.Machine

namespace Sys2Proof.Proofs.DecodeZonedSucceedsExactly

open Sys2Proof.Machine

/-- Settles O48: the last byte apart from those before it; each sign has its marker, its range of bytes and its bound. -/
theorem decodeZonedSucceedsExactly : Obligations.DecodeZonedSucceedsExactly := by
  unfold Obligations.DecodeZonedSucceedsExactly
  intro bs v
  rw [decodeZoned_eq_ok_iff]
  by_cases hbs : bs = []
  · subst hbs
    simp
  · obtain ⟨cs, b, rfl⟩ := exists_eq_concat_of_ne_nil hbs
    rw [← zonedViolation_eq_none_iff, zonedViolation_concat_eq_none_iff, forall_before_last_concat_iff, and_assoc]
    simp only [List.getLast?_concat, Option.some.injEq, exists_eq_left', Bool.exists_bool, toInt64_eq_ok_iff]
    rw [and_or_left]
    exact and_congr (forall₂_congr fun c _ => (byte_range_iff c 0x3).symm)
      (or_congr (signed_byte_range_iff b 0x3 _) (signed_byte_range_iff b 0x7 _))

end Sys2Proof.Proofs.DecodeZonedSucceedsExactly

namespace Sys2Proof.Proofs.ZonedErrorOrder

open Sys2Proof.Machine

/-- Settles O49: each kind by the equivalence for it, with the faults and the sign's marker and bound written out. -/
theorem zonedErrorOrder : Obligations.ZonedErrorOrder := by
  unfold Obligations.ZonedErrorOrder
  intro bs _
  refine ⟨?_, ?_, ?_, ?_⟩
  · rw [decodeZoned_eq_violation_iff bs (.inl rfl), zonedViolation_eq_zonePart_iff]
    simp only [ZoneFault, CleanBefore, and_assoc]
  · rw [decodeZoned_eq_violation_iff bs (.inr rfl), zonedViolation_eq_digitPart_iff]
    simp only [DigitFault, CleanBefore, and_assoc]
  · rw [decodeZoned_eq_signPart_iff, NoPartFault, and_assoc]
  · rw [decodeZoned_eq_overflow_iff, NoPartFault, and_assoc]
    simp only [Bool.exists_bool]
    rfl

end Sys2Proof.Proofs.ZonedErrorOrder

namespace Sys2Proof.Proofs.ZonedErrorsAreViolations

open Sys2Proof.Machine

/-- Settles O50: a kind that is reported is a fault by its equivalence; conversely phase 1 finds some fault when there is one,
and when it finds none a bad sign is the answer. -/
theorem zonedErrorsAreViolations : Obligations.ZonedErrorsAreViolations := by
  unfold Obligations.ZonedErrorsAreViolations
  intro bs
  have hzone := (decodeZoned_eq_violation_iff bs (.inl rfl)).trans (zonedViolation_eq_zonePart_iff bs)
  have hdigit := (decodeZoned_eq_violation_iff bs (.inr rfl)).trans (zonedViolation_eq_digitPart_iff bs)
  refine ⟨fun h => ?_, fun h => ?_, fun h => ?_, fun h => ?_, fun h => ?_, fun ⟨b, hlast, hsign⟩ => ?_⟩
  · obtain ⟨i, b, hfault, _⟩ := hzone.mp h
    exact ⟨i, b, hfault⟩
  · exact ((decodeZoned_eq_signPart_iff bs).mp h).2
  · obtain ⟨i, b, ⟨hget, hb, _⟩, _⟩ := hdigit.mp h
    exact ⟨b, List.mem_of_getElem? hget, hb⟩
  · obtain ⟨⟨hzones, hdigits⟩, b, hlast, hrange⟩ := (decodeZoned_eq_overflow_iff bs).mp h
    exact ⟨hzones, hdigits, b, hlast, Bool.exists_bool.mp hrange⟩
  · cases hviolation : zonedViolation bs with
    | some k =>
      rw [decodeZoned_of_violation hviolation]
      rcases zonedViolation_eq_zonePart_or_digitPart hviolation with rfl | rfl
      · exact .inl rfl
      · exact .inr rfl
    | none =>
      obtain ⟨hzones, hdigits⟩ := (zonedViolation_eq_none_iff bs).mp hviolation
      rcases h with ⟨i, b, hi, hget, hb⟩ | ⟨b, hmem, hb⟩
      · exact absurd (hzones i b hi hget) hb
      · exact absurd (hdigits b hmem) (Nat.not_le.mpr hb)
  · cases hviolation : zonedViolation bs with
    | some k =>
      refine ⟨k, decodeZoned_of_violation hviolation, ?_⟩
      rcases zonedViolation_eq_zonePart_or_digitPart hviolation with rfl | rfl <;> exact ErrorKind.noConfusion
    | none =>
      have hparts := (zonedViolation_eq_none_iff bs).mp hviolation
      exact ⟨_, (decodeZoned_eq_signPart_iff bs).mpr ⟨hparts, b, hlast, hsign⟩, ErrorKind.noConfusion⟩

end Sys2Proof.Proofs.ZonedErrorsAreViolations

namespace Sys2Proof.Proofs.OneByteZonedInputs

open Sys2Proof.Machine

/-- What one byte alone decodes to: the two ranges of ten, with the value counted from the byte for zero (R187). -/
theorem decodeZoned_singleton_eq_ok_iff (b : Byte) (v : Word) :
    decodeZoned [b] = some (.ok v) ↔
      0x30 ≤ b.toNat ∧ b.toNat ≤ 0x39 ∧ v.toInt = (b.toNat : Int) - 0x30 ∨
      0x70 ≤ b.toNat ∧ b.toNat ≤ 0x79 ∧ v.toInt = 0x70 - (b.toNat : Int) := by
  have hvalue : digitsValue ([b].map fun x => (lo x).toNat) = b.toNat % 16 :=
    (digitsValue_eq_from_head _ _).trans (lo_toNat b)
  rw [DecodeZonedSucceedsExactly.decodeZonedSucceedsExactly, hvalue]
  constructor
  · rintro ⟨_, c, hlast, h⟩
    obtain rfl : b = c := Option.some.inj hlast
    omega
  · intro h
    exact ⟨fun i c hi => absurd hi (by simp), b, rfl, by omega⟩

/-- Settles O51: each accepted byte has its value as witness, and a byte alone has no zone to blame. -/
theorem oneByteZonedInputs : Obligations.OneByteZonedInputs := by
  unfold Obligations.OneByteZonedInputs
  intro b
  simp only [decodeZoned_singleton_eq_ok_iff]
  refine ⟨⟨?_, ?_⟩, fun v hv => ?_, fun h => ?_⟩
  · rintro ⟨v, ⟨hlow, hhigh, _⟩ | ⟨hlow, hhigh, _⟩⟩
    · exact .inl ⟨hlow, hhigh⟩
    · exact .inr ⟨hlow, hhigh⟩
  · rintro (⟨hlow, hhigh⟩ | ⟨hlow, hhigh⟩)
    · exact ⟨_, .inl ⟨hlow, hhigh, BitVec.toInt_ofInt_eq_self (by decide) (by omega) (by omega)⟩⟩
    · exact ⟨_, .inr ⟨hlow, hhigh, BitVec.toInt_ofInt_eq_self (by decide) (by omega) (by omega)⟩⟩
  · split <;> omega
  · rw [decodeZoned_eq_violation_iff [b] (.inl rfl), zonedViolation_singleton_eq_some_iff] at h
    cases h.2

end Sys2Proof.Proofs.OneByteZonedInputs
end

section
/-! PROOFS. What a decoder leaves alone, and DECZ from start to end (R181). -/

namespace Sys2Proof.Machine

/-- A decoder completes, and writes nothing but `RES` and `STATUS`, of which it keeps `DV` (R41, R181, R231). -/
theorem State.decodeWith_frame (s : State) (f : List Byte → Option Decoded) :
    (s.decodeWith f).status.busy = false ∧ (s.decodeWith f).status.done = true ∧
      (s.decodeWith f).status.dv = s.status.dv ∧ (∀ i, (s.decodeWith f).readBuf i = s.readBuf i) ∧
      (s.decodeWith f).val = s.val ∧ (s.decodeWith f).len = s.len ∧ (s.decodeWith f).cur = s.cur ∧
      (s.decodeWith f).cfg = s.cfg ∧ (s.decodeWith f).powerUps = s.powerUps ∧ (s.decodeWith f).turns = s.turns ∧
      (s.decodeWith f).reads = s.reads := by
  rcases s.decodeWith_cases f with ⟨_, h⟩ | ⟨v, _, h⟩ | ⟨k, _, h⟩ <;> rw [h] <;>
    exact ⟨rfl, rfl, rfl, State.readBuf_congr rfl rfl, rfl, rfl, rfl, rfl, rfl, rfl, rfl⟩

/-- `BUF[0..LEN-1]` is empty for `LEN = 0` alone. -/
theorem State.readSeq_ne_nil (s : State) {n : Nat} (h : n ≠ 0) : s.readSeq n ≠ [] := by
  simpa [State.readSeq] using h

/-- The zoned decoder has an answer for every sequence that is not empty (R180, R188). -/
theorem exists_decodeZoned_eq_some {bs : List Byte} (h : bs ≠ []) : ∃ d, decodeZoned bs = some d := by
  simp only [decodeZoned_eq_some_iff, ← zonedViolation_eq_none_iff]
  have hlast := List.getLast?_eq_some_getLast h
  cases hviolation : zonedViolation bs with
  | some k => exact ⟨_, .inl ⟨k, rfl, rfl⟩⟩
  | none =>
    cases hsign : zonedSignOf (bs.getLast h) with
    | none => exact ⟨_, .inr ⟨rfl, _, hlast, .inl ⟨hsign, rfl⟩⟩⟩
    | some neg => exact ⟨_, .inr ⟨rfl, _, hlast, .inr ⟨neg, hsign, rfl⟩⟩⟩

end Sys2Proof.Machine

namespace Sys2Proof.Proofs.DeczDeliversResultOrError

open Sys2Proof.Machine

/-- Settles O27: the frame is every decoder's; a good length makes an operand that is not empty, for which there is an answer. -/
theorem deczDeliversResultOrError : Obligations.DeczDeliversResultOrError := by
  unfold Obligations.DeczDeliversResultOrError
  intro s nib
  obtain ⟨hbusy, hdone, hdv, hframe⟩ := s.decodeWith_frame decodeZoned
  refine ⟨s.decodeWith decodeZoned, exec_decz nib s, hbusy, hdone, hdv, fun hbad => ?_, fun hpos hle => ?_, hframe⟩
  · rw [State.decodeWith_of_badLength hbad]
    exact ⟨rfl, rfl⟩
  · obtain ⟨d, hd⟩ := exists_decodeZoned_eq_some (s.readSeq_ne_nil hpos)
    rw [State.decodeWith_of_length hpos hle hd, hd]
    cases d with
    | ok v => exact .inl ⟨v, rfl, rfl, rfl⟩
    | err k =>
      cases k with
      | invalidZonePart => exact .inr (.inl ⟨rfl, rfl, rfl⟩)
      | invalidSignPart => exact .inr (.inr (.inl ⟨rfl, rfl, rfl⟩))
      | invalidDigitPart => exact .inr (.inr (.inr (.inl ⟨rfl, rfl, rfl⟩)))
      | overflow => exact .inr (.inr (.inr (.inr ⟨rfl, rfl, rfl⟩)))

end Sys2Proof.Proofs.DeczDeliversResultOrError
end

section
/-! PROOFS. Packed byte sequences (R211, R230) as nibble strings: every nibble but the last is a digit position and the last is the
sign position. What stands there determines the sequence, and the decoder reads exactly that. -/

namespace Sys2Proof.Machine

/-! ### Digits in nibbles -/

/-- A nibble is the nibble of the number it holds. -/
theorem digitNibble_of_toNat (n : Nibble) : digitNibble n.toNat = n := by
  rw [digitNibble, BitVec.ofNat_toNat, BitVec.setWidth_eq]

theorem map_toNat_map_digitNibble {ds : List Nat} (h : ∀ d ∈ ds, d ≤ 9) :
    (ds.map digitNibble).map BitVec.toNat = ds := by
  rw [List.map_map]
  exact (List.map_congr_left fun d hd => digitNibble_toNat (h d hd)).trans (List.map_id ds)

theorem map_digitNibble_map_toNat (ns : List Nibble) : (ns.map BitVec.toNat).map digitNibble = ns := by
  rw [List.map_map]
  exact (List.map_congr_left fun n _ => digitNibble_of_toNat n).trans (List.map_id ns)

/-- A digit list has the value 0 exactly when it has no other digit than 0 (R136). -/
theorem digitsValue_eq_zero_iff (ds : List Nat) : digitsValue ds = 0 ↔ ∀ d ∈ ds, d = 0 := by
  induction ds with
  | nil => simp
  | cons d ds ih =>
    have hpow : 10 ^ ds.length ≠ 0 := Nat.ne_of_gt (Nat.pow_pos (by decide))
    rw [digitsValue_cons, Nat.add_eq_zero_iff, Nat.mul_eq_zero, or_iff_left hpow, ih, List.forall_mem_cons]

/-! ### The nibble string of a byte sequence -/

/-- The high nibbles stand at the even positions (R10). -/
theorem nibbles_getElem?_even (bs : List Byte) (j : Nat) : (nibbles bs)[2 * j]? = bs[j]?.map hi := by
  induction bs generalizing j with
  | nil => simp
  | cons b bs ih =>
    cases j with
    | zero => rfl
    | succ j => exact ih j

/-- The low nibbles stand at the odd positions (R10). -/
theorem nibbles_getElem?_odd (bs : List Byte) (j : Nat) : (nibbles bs)[2 * j + 1]? = bs[j]?.map lo := by
  induction bs generalizing j with
  | nil => simp
  | cons b bs ih =>
    cases j with
    | zero => rfl
    | succ j => exact ih j

/-- The last nibble is the low one of the last byte (R10). -/
theorem nibbles_getLast? (bs : List Byte) : (nibbles bs).getLast? = bs.getLast?.map lo := by
  by_cases hbs : bs = []
  · subst hbs
    rfl
  · obtain ⟨cs, b, rfl⟩ := exists_eq_concat_of_ne_nil hbs
    rw [nibbles_append, List.getLast?_concat, List.getLast?_append]
    rfl

/-- The digit positions and the sign position make up the nibble string (R230). -/
theorem nibbles_dropLast_concat {bs : List Byte} {b : Byte} (h : bs.getLast? = some b) :
    (nibbles bs).dropLast ++ [lo b] = nibbles bs := by
  have hlast : (nibbles bs).getLast? = some (lo b) := by rw [nibbles_getLast?, h, Option.map_some]
  obtain ⟨ns, hns⟩ := List.getLast?_eq_some_iff.mp hlast
  rw [hns, List.dropLast_concat]

/-- There is one digit position less than there are nibbles (R230). -/
theorem packedDigits_length (bs : List Byte) : (packedDigits bs).length = 2 * bs.length - 1 := by
  rw [packedDigits, List.length_map, List.length_dropLast, nibbles_length]

/-- The digit positions hold zeros alone exactly when their value is 0 (R138). -/
theorem digitsValue_packedDigits_eq_zero_iff (bs : List Byte) :
    digitsValue (packedDigits bs) = 0 ↔ ∀ n ∈ (nibbles bs).dropLast, n = 0 := by
  rw [digitsValue_eq_zero_iff, packedDigits, List.forall_mem_map]
  exact forall₂_congr fun n _ => nibble_toNat_eq_zero_iff n

/-! ### The bytes of a digit string -/

/-- The packed bytes of an odd number of digits and a sign nibble behind them (R211). -/
def packedBytes (sign : Nibble) (ds : List Nat) : List Byte := packNibbles (ds.map digitNibble ++ [sign])

theorem nibbles_packedBytes (sign : Nibble) {ds : List Nat} (hodd : ds.length % 2 = 1) :
    nibbles (packedBytes sign ds) = ds.map digitNibble ++ [sign] := by
  refine nibbles_packNibbles _ ?_
  rw [List.length_append, List.length_map, List.length_singleton]
  omega

/-- A byte sequence is the bytes of its digits and its sign nibble (R211, R230). -/
theorem packedBytes_packedDigits {bs : List Byte} {b : Byte} (h : bs.getLast? = some b) :
    packedBytes (lo b) (packedDigits bs) = bs := by
  rw [packedBytes, packedDigits, map_digitNibble_map_toNat, nibbles_dropLast_concat h, packNibbles_nibbles]

/-! ### What the decoder accepts -/

/-- Phase 1 of R230 finds nothing exactly when every digit position holds a digit. -/
theorem packedViolation_eq_none_iff (bs : List Byte) :
    packedViolation bs = none ↔ ∀ n ∈ (nibbles bs).dropLast, n.toNat ≤ 9 := by
  simp [packedViolation, isDigit]

/-- The sign marker of a packed sequence, true for negative (R6, R134). -/
def packedMarker (neg : Bool) : Nibble := if neg then packedNegative else packedPositive

/-- The marker determines the sign (R6). -/
theorem packedMarker_eq_negative_iff (neg : Bool) : packedMarker neg = packedNegative ↔ neg = true := by
  cases neg <;> decide

/-- Phase 2 of R230 finds a sign exactly when its marker stands in the low nibble of the last byte. -/
theorem packedSignOf_eq_some_iff (b : Byte) (neg : Bool) : packedSignOf b = some neg ↔ lo b = packedMarker neg := by
  unfold packedSignOf
  generalize lo b = l
  revert l neg
  decide

/-- R235 by nibbles: digits, a sign, and the value of sign and magnitude. -/
theorem decodePacked_eq_ok_iff (bs : List Byte) (v : Word) :
    decodePacked bs = some (.ok v) ↔
      (∀ n ∈ (nibbles bs).dropLast, n.toNat ≤ 9) ∧ ∃ b, bs.getLast? = some b ∧
        ∃ neg, lo b = packedMarker neg ∧ toInt64 neg (digitsValue (packedDigits bs)) = .ok v := by
  simp only [← packedViolation_eq_none_iff, ← packedSignOf_eq_some_iff]
  cases hlast : bs.getLast? with
  | none => simp [decodePacked, hlast]
  | some b =>
    cases hviolation : packedViolation bs with
    | some k => simp [decodePacked, hlast, hviolation]
    | none => cases hsign : packedSignOf b <;> simp [decodePacked, hlast, hviolation, hsign, -Bool.exists_bool]

end Sys2Proof.Machine
end

section
/-! PROOFS. The padding of a digit string (R211), and which strings are the padded digits of a number: those that do not begin with
two zeros (R213, R215). -/

namespace Sys2Proof.Machine

theorem padOdd_of_even {ds : List Nat} (h : ds.length % 2 = 0) : padOdd ds = 0 :: ds := if_pos h

theorem padOdd_of_odd {ds : List Nat} (h : ds.length % 2 = 1) : padOdd ds = ds := if_neg (by omega)

/-- The padding comes in front of the digits (R211). -/
theorem padOdd_eq_append (ds : List Nat) : padOdd ds = (if ds.length % 2 = 0 then [0] else []) ++ ds := by
  rw [padOdd]
  split <;> rfl

theorem padOdd_length_odd (ds : List Nat) : (padOdd ds).length % 2 = 1 := by
  rw [padOdd_length]
  omega

theorem padOdd_le_nine {ds : List Nat} (h : ∀ d ∈ ds, d ≤ 9) : ∀ d ∈ padOdd ds, d ≤ 9 := by
  rw [padOdd]
  split
  · exact List.forall_mem_cons.mpr ⟨Nat.zero_le 9, h⟩
  · exact h

/-- The padding does not change the value (R139). -/
@[simp] theorem digitsValue_padOdd (ds : List Nat) : digitsValue (padOdd ds) = digitsValue ds := by
  rw [padOdd]
  split
  · exact digitsValue_zero_cons ds
  · rfl

/-- The digits of a number have no leading zero but 0 itself, so padded they do not begin with two (R213). -/
theorem not_zeros_prefix_padOdd_digits (m : Nat) : ¬ [0, 0] <+: padOdd (digits m) := by
  by_cases hm : m = 0
  · subst hm
    decide
  · obtain ⟨d, hhead, hd⟩ := digits_head_ne_zero hm
    obtain ⟨ds, hds⟩ := List.head?_eq_some_iff.mp hhead
    rw [hds, padOdd]
    split <;> simp [List.cons_prefix_cons, Ne.symm hd]

/-- A digit string of odd length that does not begin with two zeros is the padded digits of its value (R143, R215). -/
theorem padOdd_digits_digitsValue {ds : List Nat} (hodd : ds.length % 2 = 1) (hle : ∀ d ∈ ds, d ≤ 9)
    (hzeros : ¬ [0, 0] <+: ds) : padOdd (digits (digitsValue ds)) = ds := by
  cases ds with
  | nil => cases hodd
  | cons d es =>
    by_cases hd : d = 0
    · subst hd
      cases es with
      | nil => rfl
      | cons e es =>
        have he : e ≠ 0 := by
          rintro rfl
          exact hzeros (List.prefix_append [0, 0] es)
        have heven : (e :: es).length % 2 = 0 := by
          rw [List.length_cons] at hodd
          omega
        rw [digitsValue_zero_cons, digits_digitsValue he (List.forall_mem_cons.mp hle).2, padOdd_of_even heven]
    · rw [digits_digitsValue hd hle, padOdd_of_odd hodd]

/-- A byte is 0x00 exactly when both nibbles are 0 (R9). -/
theorem byte_eq_zero_iff (b : Byte) : b = 0x00 ↔ (hi b).toNat = 0 ∧ (lo b).toNat = 0 := by
  revert b
  decide

/-- The condition (a) of R215, on the bytes and on the digits. -/
theorem packed_canonical_iff {bs : List Byte} (h : bs ≠ []) :
    (bs.length = 1 ∨ ∃ b, bs.head? = some b ∧ b ≠ 0x00) ↔ ¬ [0, 0] <+: packedDigits bs := by
  cases bs with
  | nil => exact absurd rfl h
  | cons b bs =>
    cases bs with
    | nil => simp [packedDigits, List.cons_prefix_cons]
    | cons c cs =>
      have hdigits : packedDigits (b :: c :: cs) = (hi b).toNat :: (lo b).toNat :: packedDigits (c :: cs) := rfl
      rw [hdigits, List.cons_prefix_cons, List.cons_prefix_cons]
      simpa [eq_comm (a := 0)] using not_congr (byte_eq_zero_iff b)

end Sys2Proof.Machine
end

section
/-! PROOFS. The packed encoder: each byte, the shape of the output, the round trip, and which sequences it produces (R211, R213 to
R215). -/

namespace Sys2Proof.Machine

theorem encodePacked_eq (v : Word) : encodePacked v = packedBytes (packedMarker (isNeg v)) (padOdd (digits (mag v))) := rfl

/-- The nibble string that R211 packs. -/
theorem nibbles_encodePacked (v : Word) :
    nibbles (encodePacked v) = (padOdd (digits (mag v))).map digitNibble ++ [packedMarker (isNeg v)] :=
  nibbles_packedBytes _ (padOdd_length_odd _)

theorem encodePacked_ne_nil (v : Word) : encodePacked v ≠ [] := List.ne_nil_of_length_pos (encodePacked_length_range v).1

/-- The digits of an encoding are the padded ones of the magnitude (R211). -/
theorem packedDigits_encodePacked (v : Word) : packedDigits (encodePacked v) = padOdd (digits (mag v)) := by
  rw [packedDigits, nibbles_encodePacked, List.dropLast_concat, map_toNat_map_digitNibble (padOdd_le_nine (digits_le_nine _))]

theorem digitsValue_packedDigits_encodePacked (v : Word) : digitsValue (packedDigits (encodePacked v)) = mag v := by
  rw [packedDigits_encodePacked, digitsValue_padOdd, digitsValue_digits]

/-- Every digit position of an encoding holds a digit (R213). -/
theorem encodePacked_digit_positions (v : Word) : ∀ n ∈ (nibbles (encodePacked v)).dropLast, n.toNat ≤ 9 := by
  have hdigits := padOdd_le_nine (digits_le_nine (mag v))
  rw [← packedDigits_encodePacked] at hdigits
  exact List.forall_mem_map.mp hdigits

/-- The sign position of an encoding holds the marker of the sign (R213). -/
theorem encodePacked_getLast? (v : Word) : ∃ b, (encodePacked v).getLast? = some b ∧ lo b = packedMarker (isNeg v) := by
  refine Option.map_eq_some_iff.mp ?_
  rw [← nibbles_getLast?, nibbles_encodePacked, List.getLast?_concat]

/-- The decoder undoes the encoder (R214). -/
theorem decodePacked_encodePacked (v : Word) : decodePacked (encodePacked v) = some (.ok v) := by
  obtain ⟨b, hlast, hsign⟩ := encodePacked_getLast? v
  refine (decodePacked_eq_ok_iff _ v).mpr ⟨encodePacked_digit_positions v, b, hlast, isNeg v, hsign, ?_⟩
  rw [digitsValue_packedDigits_encodePacked, toInt64_isNeg_mag]

/-- An encoding is one byte long or does not begin with 0x00 (R213). -/
theorem encodePacked_canonical (v : Word) :
    (encodePacked v).length = 1 ∨ ∃ b, (encodePacked v).head? = some b ∧ b ≠ 0x00 := by
  rw [packed_canonical_iff (encodePacked_ne_nil v), packedDigits_encodePacked]
  exact not_zeros_prefix_padOdd_digits (mag v)

/-- The marker of a value is 0xD or 0xC by the sign (R134). -/
theorem packedMarker_isNeg (v : Word) : packedMarker (isNeg v) = if v.toInt < 0 then 0xD else 0xC := by
  simp only [packedMarker, isNeg_iff]

/-- A negative value has a positive magnitude, as zero is not negative (R134). -/
theorem mag_ne_zero_of_isNeg {v : Word} (h : isNeg v = true) : mag v ≠ 0 := by
  have hsign := (isNeg_iff v).mp h
  have hmag := mag_of_neg hsign
  omega

end Sys2Proof.Machine

namespace Sys2Proof.Proofs.EncodePackedBytes

open Sys2Proof.Machine

/-- The nibble string of R211 as numbers. -/
theorem map_toNat_nibbles_encodePacked (v : Word) :
    (nibbles (encodePacked v)).map BitVec.toNat =
      (if numDigits (mag v) % 2 = 0 then [0] else []) ++ digits (mag v) ++ [if v.toInt < 0 then 0xD else 0xC] := by
  rw [nibbles_encodePacked, List.map_append, map_toNat_map_digitNibble (padOdd_le_nine (digits_le_nine _)), padOdd_eq_append,
    List.map_singleton, packedMarker_isNeg, apply_ite BitVec.toNat]
  rfl

/-- Settles O52: the nibbles of the encoding are the string of R211, and byte `j` is made of the nibbles `2j` and `2j + 1`. -/
theorem encodePackedBytes : Obligations.EncodePackedBytes := by
  unfold Obligations.EncodePackedBytes
  intro v
  obtain ⟨hpos, hle⟩ := encodePacked_length_range v
  refine ⟨_, map_toNat_nibbles_encodePacked v, encodePacked_length v, hpos, hle, ?_, fun j hj => ?_⟩
  · rw [List.length_map, nibbles_length]
  · have hbyte := List.getElem?_eq_getElem hj
    refine ⟨(hi (encodePacked v)[j]).toNat, (lo (encodePacked v)[j]).toNat, _, ?_, ?_, hbyte, ?_⟩
    · rw [List.getElem?_map, nibbles_getElem?_even, hbyte, Option.map_some, Option.map_some]
    · rw [List.getElem?_map, nibbles_getElem?_odd, hbyte, Option.map_some, Option.map_some]
    · rw [← byteOf_toNat, byteOf_hi_lo]

end Sys2Proof.Proofs.EncodePackedBytes

namespace Sys2Proof.Proofs.EncodePackedShape

open Sys2Proof.Machine

/-- Settles O53: the digit positions and the sign position by the nibble string, the first byte because padded digits do not begin
with two zeros, and `[0x0D]`, which decodes to 0, is not the encoding of 0. -/
theorem encodePackedShape : Obligations.EncodePackedShape := by
  unfold Obligations.EncodePackedShape
  intro v
  refine ⟨encodePacked_digit_positions v, ?_, ?_, fun h => ?_⟩
  · obtain ⟨b, hlast, hsign⟩ := encodePacked_getLast? v
    refine ⟨b, hlast, ?_⟩
    rw [hsign, packedMarker_isNeg, ← ite_not]
    simp only [Int.not_lt]
  · have hhead := List.head?_eq_some_head (encodePacked_ne_nil v)
    refine ⟨_, hhead, fun hlen => ?_⟩
    rcases encodePacked_canonical v with hone | ⟨b, hb, hne⟩
    · omega
    · cases hhead.symm.trans hb
      exact hne
  · have hzero : decodePacked (encodePacked v) = some (.ok 0) := h ▸ by decide
    cases hzero.symm.trans (decodePacked_encodePacked v)
    exact absurd h (by decide)

end Sys2Proof.Proofs.EncodePackedShape

namespace Sys2Proof.Proofs.CanonicalPackedSequences

open Sys2Proof.Machine

/-- Settles O55: an accepted sequence is the bytes of its digits and sign, and these are the padded digits and the sign of the value
exactly when there is no padding byte and no negative zero. -/
theorem canonicalPackedSequences : Obligations.CanonicalPackedSequences := by
  unfold Obligations.CanonicalPackedSequences
  intro bs v h
  obtain ⟨hdigits, b, hlast, neg, hsign, hvalue⟩ := (decodePacked_eq_ok_iff bs v).mp h
  constructor
  · rintro rfl
    refine ⟨encodePacked_canonical v, fun ⟨hzeros, c, hc, hmarker⟩ => ?_⟩
    have hmag := (digitsValue_packedDigits_eq_zero_iff _).mpr hzeros
    rw [digitsValue_packedDigits_encodePacked] at hmag
    obtain ⟨d, hd, hmarkerOf⟩ := encodePacked_getLast? v
    cases hc.symm.trans hd
    exact mag_ne_zero_of_isNeg ((packedMarker_eq_negative_iff _).mp (hmarkerOf.symm.trans hmarker)) hmag
  · rintro ⟨hcanonical, hnegZero⟩
    have hne : bs ≠ [] := by
      rintro rfl
      cases hlast
    have hodd : (packedDigits bs).length % 2 = 1 := by
      have hpos := List.length_pos_iff.mpr hne
      rw [packedDigits_length]
      omega
    have hcanon := padOdd_digits_digitsValue hodd (List.forall_mem_map.mpr hdigits) ((packed_canonical_iff hne).mp hcanonical)
    have hnonzero : neg = true → digitsValue (packedDigits bs) ≠ 0 := fun hneg hzero =>
      hnegZero ⟨(digitsValue_packedDigits_eq_zero_iff bs).mp hzero, b, hlast,
        hsign.trans ((packedMarker_eq_negative_iff neg).mpr hneg)⟩
    rw [encodePacked_eq, isNeg_of_toInt64_ok hvalue hnonzero, mag_of_toInt64_ok hvalue, hcanon, ← hsign,
      packedBytes_packedDigits hlast]

end Sys2Proof.Proofs.CanonicalPackedSequences
end

section
/-! PROOFS. ENCP from start to end (R212), and DECP after it (R214). -/

namespace Sys2Proof.Machine

/-- A delivered sequence is read back from its cells, and every cell behind it is as before (R162, R212). -/
theorem readBuf_of_delivered {s t : State} {bs : List Byte} (h : deliverSequence s bs = .next t) :
    (∀ i, i < bs.length → bs[i]? = some (t.readBuf i)) ∧ ∀ i, bs.length ≤ i → t.readBuf i = s.readBuf i := by
  obtain ⟨_, rfl⟩ := deliverSequence_next h
  refine ⟨fun i hi => ?_, s.readBuf_writeSeq_outside bs⟩
  rw [List.getElem?_eq_getElem hi]
  exact congrArg some (s.readBuf_writeSeq_inside bs i hi).symm

/-- An encoder completes without error, and of everything but the buffer and `LEN` it writes nothing else (R41, R162, R212). -/
theorem frame_of_delivered {s t : State} {bs : List Byte} (h : deliverSequence s bs = .next t) :
    t.status = { busy := false, done := true, dv := s.status.dv, err := 0 } ∧
      t.val = s.val ∧ t.res = s.res ∧ t.cur = s.cur ∧ t.cfg = s.cfg ∧ t.powerUps = s.powerUps ∧ t.turns = s.turns ∧
      t.reads = s.reads := by
  obtain ⟨_, rfl⟩ := deliverSequence_next h
  exact ⟨rfl, rfl, rfl, rfl, rfl, rfl, rfl, rfl⟩

end Sys2Proof.Machine

namespace Sys2Proof.Proofs.EncpDeliversPackedBytes

open Sys2Proof.Machine

/-- Settles O26: the encoding fits the buffer and `LEN`, and the rest is the frame of the end of an encoder. -/
theorem encpDeliversPackedBytes : Obligations.EncpDeliversPackedBytes := by
  unfold Obligations.EncpDeliversPackedBytes
  intro s nib hcfg
  obtain ⟨hpos, hle⟩ := encodePacked_length_range s.val
  obtain ⟨t, ht⟩ := exec_progress hcfg (.encp nib)
  have hlen := len_toNat_of_delivered ht (Nat.le_trans hle (by decide))
  obtain ⟨hinside, houtside⟩ := readBuf_of_delivered ht
  exact ⟨t, ht, hpos, hle, hlen, hinside, houtside, frame_of_delivered ht⟩

end Sys2Proof.Proofs.EncpDeliversPackedBytes

namespace Sys2Proof.Proofs.PackedRoundTrip

open Sys2Proof.Machine

/-- Settles O54: the functions by what stands at the digit positions and the sign position, the commands because the delivered
encoding is the decoder's operand. -/
theorem packedRoundTrip : Obligations.PackedRoundTrip := by
  unfold Obligations.PackedRoundTrip
  refine ⟨decodePacked_encodePacked, fun s m n hcfg => ?_⟩
  obtain ⟨hpos, hle⟩ := encodePacked_length_range s.val
  have hle19 := Nat.le_trans hle (by decide : 10 ≤ 19)
  obtain ⟨t, ht⟩ := exec_progress hcfg (.encp m)
  have hdecode := State.decodeWith_of_ok (seqOperand_of_delivered ht hpos hle19) (decodePacked_encodePacked s.val)
  refine ⟨t, (t.setRes s.val).complete errNone, ht, by rw [exec_decp, hdecode], rfl, rfl, ?_⟩
  exact (len_toNat_of_delivered ht hle19).trans (encodePacked_length s.val)

end Sys2Proof.Proofs.PackedRoundTrip
end

section
/-! PROOFS. Every answer of the packed decoder with the inputs that get it (R230, R233, R235, R237). -/

namespace Sys2Proof.Machine

/-- `ToInt64` fails with Overflow alone, and exactly above the bound of the sign (R137). -/
theorem toInt64_eq_err_iff (neg : Bool) (m : Nat) (k : ErrorKind) :
    toInt64 neg m = .err k ↔ k = .overflow ∧ magnitudeBound neg < m := by
  rw [← toInt64_eq_overflow_iff]
  constructor
  · intro h
    obtain rfl := toInt64_eq_err h
    exact ⟨rfl, h⟩
  · rintro ⟨rfl, h⟩
    exact h

/-- Phase 1 of R230 blames nothing but a digit, and does so exactly when some digit position holds none. -/
theorem packedViolation_eq_some_iff (bs : List Byte) (k : ErrorKind) :
    packedViolation bs = some k ↔ (∃ n ∈ (nibbles bs).dropLast, 9 < n.toNat) ∧ k = .invalidDigitPart := by
  simp [packedViolation, isDigit, eq_comm (a := k)]

/-- Phase 2 of R230 finds no sign exactly when the low nibble of the last byte is neither marker. -/
theorem packedSignOf_eq_none_iff (b : Byte) : packedSignOf b = none ↔ lo b ≠ packedPositive ∧ lo b ≠ packedNegative := by
  unfold packedSignOf
  generalize lo b = l
  revert l
  decide

/-- The three phases of R230: the violation that phase 1 finds, else the bad sign, else the range test of sign and magnitude. -/
theorem decodePacked_eq_some_iff {bs : List Byte} {b : Byte} (hlast : bs.getLast? = some b) (d : Decoded) :
    decodePacked bs = some d ↔
      (∃ k, packedViolation bs = some k ∧ .err k = d) ∨
      packedViolation bs = none ∧
        (packedSignOf b = none ∧ .err .invalidSignPart = d ∨
          ∃ neg, packedSignOf b = some neg ∧ toInt64 neg (digitsValue (packedDigits bs)) = d) := by
  cases hviolation : packedViolation bs with
  | some k => simp [decodePacked, hlast, hviolation]
  | none => cases hsign : packedSignOf b <;> simp [decodePacked, hlast, hviolation, hsign, -Bool.exists_bool]

/-- The errors in the order of R233: a digit before the sign, and both before the range. -/
theorem decodePacked_eq_err_iff {bs : List Byte} {b : Byte} (hlast : bs.getLast? = some b) (k : ErrorKind) :
    decodePacked bs = some (.err k) ↔
      (∃ n ∈ (nibbles bs).dropLast, 9 < n.toNat) ∧ k = .invalidDigitPart ∨
      (∀ n ∈ (nibbles bs).dropLast, n.toNat ≤ 9) ∧
        ((lo b ≠ packedPositive ∧ lo b ≠ packedNegative) ∧ k = .invalidSignPart ∨
          ∃ neg, lo b = packedMarker neg ∧ k = .overflow ∧ magnitudeBound neg < digitsValue (packedDigits bs)) := by
  rw [decodePacked_eq_some_iff hlast, packedViolation_eq_none_iff, packedSignOf_eq_none_iff]
  simp only [packedViolation_eq_some_iff, packedSignOf_eq_some_iff, toInt64_eq_err_iff, Decoded.err.injEq,
    exists_eq_right, eq_comm (a := ErrorKind.invalidSignPart)]

/-- The packed decoder has no answer for the empty sequence alone (R237). -/
theorem decodePacked_eq_none_iff (bs : List Byte) : decodePacked bs = none ↔ bs = [] := by
  by_cases hbs : bs = []
  · subst hbs
    simp [decodePacked]
  · have hlast := List.getLast?_eq_some_getLast hbs
    cases hviolation : packedViolation bs with
    | some k => simp [decodePacked, hlast, hviolation, hbs]
    | none => cases hsign : packedSignOf (bs.getLast hbs) <;> simp [decodePacked, hlast, hviolation, hsign, hbs]

/-! ### The digit positions by bytes -/

/-- A property of all nibbles, byte by byte (R10). -/
theorem forall_mem_nibbles_iff {P : Nibble → Prop} (bs : List Byte) :
    (∀ n ∈ nibbles bs, P n) ↔ ∀ b ∈ bs, P (hi b) ∧ P (lo b) := by
  induction bs with
  | nil => simp [nibbles]
  | cons b bs ih => rw [nibbles, List.forall_mem_cons, List.forall_mem_cons, List.forall_mem_cons, ih, and_assoc]

/-- The digit positions are both nibbles of the bytes before the last, and the high nibble of the last (R230). -/
theorem nibbles_concat_dropLast (bs : List Byte) (b : Byte) : (nibbles (bs ++ [b])).dropLast = nibbles bs ++ [hi b] := by
  have hsplit : nibbles (bs ++ [b]) = nibbles bs ++ [hi b] ++ [lo b] := by
    rw [nibbles_append, List.append_assoc]
    rfl
  rw [hsplit, List.dropLast_concat]

end Sys2Proof.Machine

namespace Sys2Proof.Proofs.PackedErrorOrder

open Sys2Proof.Machine

/-- Settles O57: each kind by the one equivalence for the errors, with the sign's marker and bound written out. -/
theorem packedErrorOrder : Obligations.PackedErrorOrder := by
  unfold Obligations.PackedErrorOrder
  intro bs hbs
  obtain ⟨cs, b, rfl⟩ := exists_eq_concat_of_ne_nil hbs
  have hlast : (cs ++ [b]).getLast? = some b := List.getLast?_concat
  refine ⟨fun h => decodePacked_ne_invalidZonePart h rfl, ?_, ?_, ?_⟩ <;> rw [decodePacked_eq_err_iff hlast]
  · simp
  · simp [hlast]
  · simp only [hlast, reduceCtorEq, and_false, false_or, true_and, Option.some.injEq, exists_eq_left', Bool.exists_bool]
    rfl

end Sys2Proof.Proofs.PackedErrorOrder

namespace Sys2Proof.Proofs.DecodePackedSucceedsExactly

open Sys2Proof.Machine

/-- Settles O56: the last byte apart from those before it; each sign has its marker and its bound. -/
theorem decodePackedSucceedsExactly : Obligations.DecodePackedSucceedsExactly := by
  unfold Obligations.DecodePackedSucceedsExactly
  intro bs v
  rw [decodePacked_eq_ok_iff]
  by_cases hbs : bs = []
  · subst hbs
    simp
  · obtain ⟨cs, b, rfl⟩ := exists_eq_concat_of_ne_nil hbs
    rw [forall_before_last_concat_iff (P := fun c => (hi c).toNat ≤ 9 ∧ (lo c).toNat ≤ 9), ← packedDigits]
    simp only [List.getLast?_concat, Option.some.injEq, exists_eq_left', Bool.exists_bool, toInt64_eq_ok_iff]
    rw [nibbles_concat_dropLast, List.forall_mem_append, List.forall_mem_singleton, forall_mem_nibbles_iff, and_assoc]
    rfl

end Sys2Proof.Proofs.DecodePackedSucceedsExactly
end

section
/-! PROOFS. DECP from start to end (R231), and the codes every command can end with (R261). -/

namespace Sys2Proof.Proofs.DecpDeliversResultOrError

open Sys2Proof.Machine

/-- Settles O28: the frame is every decoder's; a good length makes an operand that is not empty, for which there is an answer,
and never the one that blames a zone. -/
theorem decpDeliversResultOrError : Obligations.DecpDeliversResultOrError := by
  unfold Obligations.DecpDeliversResultOrError
  intro s nib
  obtain ⟨hbusy, hdone, hdv, hframe⟩ := s.decodeWith_frame decodePacked
  refine ⟨s.decodeWith decodePacked, exec_decp nib s, hbusy, hdone, hdv, fun hbad => ?_, fun hpos hle => ?_, hframe⟩
  · rw [State.decodeWith_of_badLength hbad]
    exact ⟨rfl, rfl⟩
  · have hanswer : decodePacked (s.readSeq s.len.toNat) ≠ none := by
      rw [ne_eq, decodePacked_eq_none_iff]
      exact s.readSeq_ne_nil hpos
    obtain ⟨d, hd⟩ := Option.ne_none_iff_exists'.mp hanswer
    rw [State.decodeWith_of_length hpos hle hd]
    cases d with
    | ok v => exact .inl ⟨v, hd, rfl, rfl⟩
    | err k =>
      cases k with
      | invalidZonePart => exact absurd rfl (decodePacked_ne_invalidZonePart hd)
      | invalidSignPart => exact .inr (.inl ⟨hd, rfl, rfl⟩)
      | invalidDigitPart => exact .inr (.inr (.inl ⟨hd, rfl, rfl⟩))
      | overflow => exact .inr (.inr (.inr ⟨hd, rfl, rfl⟩))

end Sys2Proof.Proofs.DecpDeliversResultOrError

namespace Sys2Proof.Machine

/-- A decoder ends with no error, with InvalidLength, or with the code of a kind its Layer 1 function reports (R261). -/
theorem State.decodeWith_err_cases (s : State) (f : List Byte → Option Decoded) :
    (s.decodeWith f).status.err = errNone ∨ (s.decodeWith f).status.err = errInvalidLength ∨
      ∃ bs k, f bs = some (.err k) ∧ (s.decodeWith f).status.err = k.code := by
  rcases s.decodeWith_cases f with ⟨_, ht⟩ | ⟨v, _, ht⟩ | ⟨k, hk, ht⟩ <;> rw [ht]
  · exact .inr (.inl rfl)
  · exact .inl rfl
  · obtain ⟨bs, _, hbs⟩ := Option.bind_eq_some_iff.mp hk
    exact .inr (.inr ⟨bs, k, hbs, rfl⟩)

/-- A command ends with a code that R261 allows it. -/
theorem exec_errAllowed {i : Instr} {s t : State} (h : exec i s = .next t) : errAllowed i t.status.err = true := by
  cases i with
  | encz n => rw [(frame_of_delivered h).1]; rfl
  | encp n => rw [(frame_of_delivered h).1]; rfl
  | chkd n => cases h; rfl
  | decz n =>
    obtain rfl : s.decodeWith decodeZoned = t := Host.Outcome.next.inj h
    rcases s.decodeWith_err_cases decodeZoned with herr | herr | ⟨_, k, _, herr⟩ <;> rw [herr]
    · rfl
    · rfl
    · exact errAllowed_decz_code n k
  | decp n =>
    obtain rfl : s.decodeWith decodePacked = t := Host.Outcome.next.inj h
    rcases s.decodeWith_err_cases decodePacked with herr | herr | ⟨_, k, hk, herr⟩ <;> rw [herr]
    · rfl
    · rfl
    · exact errAllowed_decp_code n (decodePacked_ne_invalidZonePart hk)

end Sys2Proof.Machine

namespace Sys2Proof.Proofs.ErrorCodesByCommand

open Sys2Proof.Machine

/-- Settles O31: the codes allowed to each command, read off for its word. -/
theorem errorCodesByCommand : Obligations.ErrorCodesByCommand := by
  unfold Obligations.ErrorCodesByCommand
  intro s t n
  refine ⟨fun h => eq_of_beq (exec_errAllowed h), fun h => eq_of_beq (exec_errAllowed h),
    fun h => eq_of_beq (exec_errAllowed h), fun h => of_decide_eq_true (exec_errAllowed h), fun h => ?_⟩
  simpa [errAllowed] using exec_errAllowed h

end Sys2Proof.Proofs.ErrorCodesByCommand
end

section
/-! PROOFS. The errors that are not a Layer 1 kind (R266, R267), and what a failed command leaves alone (R262). -/

namespace Sys2Proof.Machine

/-- No Layer 1 kind has the code of InvalidLength (R261). -/
theorem ErrorKind.code_ne_invalidLength (k : ErrorKind) : k.code ≠ errInvalidLength := by cases k <;> decide

/-- A decoder that ends with an error writes `STATUS` alone (R262). -/
theorem State.decodeWith_eq_complete {s : State} {f : List Byte → Option Decoded}
    (h : (s.decodeWith f).status.err ≠ 0) : s.decodeWith f = s.complete (s.decodeWith f).status.err := by
  rcases s.decodeWith_cases f with ⟨_, ht⟩ | ⟨v, _, ht⟩ | ⟨k, _, ht⟩ <;> rw [ht] at h ⊢
  · rfl
  · exact absurd rfl h
  · rfl

/-- A command that ends with an error writes `STATUS` alone (R262). -/
theorem exec_eq_complete {i : Instr} {s t : State} (h : exec i s = .next t) (herr : t.status.err ≠ 0) :
    t = s.complete t.status.err := by
  rcases exec_next h with ⟨bs, _, _, rfl⟩ | ⟨f, _, rfl⟩ | ⟨n, _, rfl⟩
  · exact absurd rfl herr
  · exact State.decodeWith_eq_complete herr
  · exact absurd rfl herr

/-- A decoder with an answer for every sequence that is not empty ends with InvalidLength for a bad length alone (R266). -/
theorem State.badLength_of_decodeWith_invalidLength {s : State} {f : List Byte → Option Decoded}
    (hf : ∀ bs, bs ≠ [] → ∃ d, f bs = some d) (h : (s.decodeWith f).status.err = errInvalidLength) :
    s.len.toNat = 0 ∨ s.len.toNat > s.cfg.bufLen := by
  refine Decidable.byContradiction fun hgood => ?_
  obtain ⟨hpos, hle⟩ : s.len.toNat ≠ 0 ∧ s.len.toNat ≤ s.cfg.bufLen := by omega
  obtain ⟨d, hd⟩ := hf _ (s.readSeq_ne_nil hpos)
  rw [State.decodeWith_of_length hpos hle hd] at h
  cases d with
  | ok v => exact absurd h (by decide : errNone ≠ errInvalidLength)
  | err k => exact k.code_ne_invalidLength h

/-- The packed decoder has an answer for every sequence that is not empty (R230, R237). -/
theorem exists_decodePacked_eq_some {bs : List Byte} (h : bs ≠ []) : ∃ d, decodePacked bs = some d :=
  Option.ne_none_iff_exists'.mp fun hnone => h ((decodePacked_eq_none_iff bs).mp hnone)

/-- Code 6 is allowed to no command (R261, R267). -/
theorem errAllowed_illegalCommand (i : Instr) : errAllowed i errIllegalCommand = false := by cases i <;> rfl

end Sys2Proof.Machine

namespace Sys2Proof

/-- A word with bit 3 set or a reserved opcode is illegal (R90, R91). -/
theorem decode_illegal_of_fields {c : Byte}
    (h : zField c = true ∨ opField c = 0 ∨ opField c = 6 ∨ opField c = 7) : ∃ e, decode c = .illegal e := by
  refine exists_illegal_of_isCommand_ne_true fun legal => ?_
  rw [isCommand_decode_iff, lo_toNat_eq_zField_opField] at legal
  rcases h with hz | hop | hop | hop
  · rw [hz, Bool.toNat_true] at legal
    omega
  · have hvalue : (opField c).toNat = 0 := congrArg BitVec.toNat hop
    omega
  · have hvalue : (opField c).toNat = 6 := congrArg BitVec.toNat hop
    omega
  · have hvalue : (opField c).toNat = 7 := congrArg BitVec.toNat hop
    omega

end Sys2Proof

namespace Sys2Proof.Proofs.FailedCommandWritesOnlyStatus

open Sys2Proof.Machine

/-- Settles O32: a command that fails and an illegal word both end in `State.complete`, which writes `STATUS` alone. -/
theorem failedCommandWritesOnlyStatus : Obligations.FailedCommandWritesOnlyStatus := by
  unfold Obligations.FailedCommandWritesOnlyStatus
  intro s t h busy herr
  rcases codecTurn_next h with ⟨idle, _⟩ | ⟨_, i, _, hexec⟩ | ⟨_, e, _, rfl⟩
  · rw [busy] at idle
    cases idle
  · exact exec_eq_complete hexec herr
  · rfl

end Sys2Proof.Proofs.FailedCommandWritesOnlyStatus

namespace Sys2Proof.Proofs.InvalidLengthComesFirst

open Sys2Proof.Machine

/-- Settles O33: with a bad length no cell is read; with a good one both decoders have an answer, and no answer has code 5. -/
theorem invalidLengthComesFirst : Obligations.InvalidLengthComesFirst := by
  unfold Obligations.InvalidLengthComesFirst
  refine ⟨fun s n m hbad => ?_, fun s t n h herr => ?_⟩
  · have hends : ∀ f, (s.setBuf m).decodeWith f = (s.setBuf m).complete errInvalidLength :=
      State.decodeWith_of_badLength hbad
    rw [exec_decz, exec_decp, hends, hends]
    exact ⟨rfl, rfl⟩
  · rw [exec_decz, exec_decp] at h
    rcases h with h | h <;> cases h
    · exact State.badLength_of_decodeWith_invalidLength (fun _ => exists_decodeZoned_eq_some) herr
    · exact State.badLength_of_decodeWith_invalidLength (fun _ => exists_decodePacked_eq_some) herr

end Sys2Proof.Proofs.InvalidLengthComesFirst

namespace Sys2Proof.Proofs.IllegalCommandChangesOnlyStatus

open Sys2Proof.Machine Sys2Proof.Safety

/-- Settles O7: the codec's step is its turn, which reports the illegal word; code 6 is allowed to no command. -/
theorem illegalCommandChangesOnlyStatus : Obligations.IllegalCommandChangesOnlyStatus := by
  unfold Obligations.IllegalCommandChangesOnlyStatus
  refine ⟨fun s next busy hdv hword => ?_, fun i s t h herr => ?_⟩
  · obtain ⟨e, he⟩ := decode_illegal_of_fields hword
    have hdv' : (atTurn s).status.dv = false := hdv
    rw [step_of_codecNext next, codecTurn_of_illegal (s := atTurn s) busy he, State.complete_eq, hdv']
  · have hallowed := exec_errAllowed h
    rw [herr, errAllowed_illegalCommand] at hallowed
    cases hallowed

end Sys2Proof.Proofs.IllegalCommandChangesOnlyStatus
end

section
/-! PROOFS. Power-up (R301). -/

namespace Sys2Proof.Machine

/-- After power-up every cell reads as the next draw (R44, R301; log 1). -/
theorem State.readBuf_powerUp (s : State) (i : Nat) : s.powerUp.readBuf i = Config.bufPowerUp (s.powerUps + 1) i := rfl

end Sys2Proof.Machine

namespace Sys2Proof.Proofs.PowerUpDrawsTheBufferAnew

open Sys2Proof.Machine Sys2Proof.Safety

/-- Settles O13: the registers by the laws of `powerUp`, the cells by what they read as after it. -/
theorem powerUpDrawsTheBufferAnew : Obligations.PowerUpDrawsTheBufferAnew := by
  unfold Obligations.PowerUpDrawsTheBufferAnew
  intro s turn
  exact ⟨(atTurn s).powerUp, step_of_head turn, rfl, rfl, rfl, rfl, rfl, rfl, (atTurn s).readBuf_powerUp⟩

end Sys2Proof.Proofs.PowerUpDrawsTheBufferAnew
end

section
/-! PROOFS. Runs of several steps; a schedule bounds how long a pending command stays pending (R310). -/

namespace Sys2Proof.Machine

open Sys2Proof.Safety

/-- A run begins with its first step. -/
theorem run_succ_of_step {s t : State} (h : step s = .next t) (k : Nat) :
    Sys2Proof.core.run (k + 1) s = Sys2Proof.core.run k t := by
  have hcore : Sys2Proof.core.step s = .next t := h
  simp only [Host.Core.run, hcore]

theorem atTurn_of_cons {s : State} {tn : Turn} {ts : List Turn} (h : s.turns = tn :: ts) : atTurn s = s.setTurns ts := by
  rw [atTurn, h, List.tail_cons]

/-- A host transaction leaves a busy block as it is, and the schedule too (R45, R46). -/
theorem State.perform_of_busy {s : State} (busy : s.status.busy = true) (tx : Transaction) :
    sameButReads s (s.perform tx) := by
  rcases s.perform_cases tx with ht | ⟨r, ht⟩ | ⟨idle, _⟩ | ⟨idle, _⟩ | ⟨idle, _⟩ | ⟨idle, _⟩
  case inl => rw [ht]; exact ⟨rfl, rfl, rfl, rfl, rfl, rfl, rfl, rfl, rfl⟩
  case inr.inl => rw [ht]; exact ⟨rfl, rfl, rfl, rfl, rfl, rfl, rfl, rfl, rfl⟩
  all_goals rw [busy] at idle; cases idle

theorem scheduleCost_cons (tn : Turn) (ts : List Turn) : scheduleCost (tn :: ts) = turnCost tn + scheduleCost ts := by
  rw [scheduleCost, scheduleCost, List.map_cons, List.sum_cons, Nat.add_assoc]

/-- Some run of at most `n` steps ends the pending command (R310). -/
def CompletesWithin (n : Nat) (s : State) : Prop :=
  ∃ k t, k ≤ n ∧ Sys2Proof.core.run k s = .next t ∧ t.status.busy = false ∧ t.status.done = true

theorem CompletesWithin.mono {m n : Nat} {s : State} (h : CompletesWithin m s) (hle : m ≤ n) : CompletesWithin n s := by
  obtain ⟨k, t, hk, hend⟩ := h
  exact ⟨k, t, Nat.le_trans hk hle, hend⟩

theorem CompletesWithin.of_step {n : Nat} {s t : State} (hstep : step s = .next t) (h : CompletesWithin n t) :
    CompletesWithin (n + 1) s := by
  obtain ⟨k, u, hk, hrun, hend⟩ := h
  exact ⟨k + 1, u, Nat.succ_le_succ hk, (run_succ_of_step hstep k).trans hrun, hend⟩

/-- Where the codec moves next, its one step is Complete (R41). -/
theorem CompletesWithin.of_codecNext {s : State} (hinv : Inv s) (busy : s.status.busy = true) (next : CodecNext s) :
    CompletesWithin 1 s := by
  obtain ⟨t, ht⟩ := codecTurn_progress (s := atTurn s) hinv.cfgOk
  obtain ⟨_, _, _, hend⟩ := (codecTurn_completeEffect (s := atTurn s) busy ht).frame
  exact ⟨1, t, Nat.le_refl 1, run_succ_of_step ((step_of_codecNext next).trans ht) 0, hend⟩

end Sys2Proof.Machine

namespace Sys2Proof.Proofs.PendingCommandCompletes

open Sys2Proof.Machine Sys2Proof.Safety

/-- A poll leaves a pending command pending (O15, O17); the codec moves after the last one (R106, log 13). -/
theorem step_of_wait_busy {s : State} {k : Nat} (hinv : Inv s) (busy : s.status.busy = true)
    (turn : s.turns.head? = some (.wait k)) :
    ∃ t, step s = .next t ∧ Inv t ∧ t.status.busy = true ∧
      t.turns.head? = some (if k = 0 then .codec else .wait (k - 1)) := by
  obtain ⟨t, hstep, hblock, _, _, hgoesOn⟩ := WaitPollsUntilDone.waitPollsUntilDone s k turn
  obtain ⟨_, _, _, _, _, hstatus, _⟩ := hblock
  have hturns := hgoesOn (by rw [hinv.status_of_busy busy]; rfl)
  refine ⟨t, hstep, StepKeepsInvariants.stepKeepsInvariants s t hinv hstep, hstatus ▸ busy, ?_⟩
  rw [hturns]
  split <;> rfl

/-- A `wait` lets the codec complete the pending command within two steps more than the polls it has left. -/
theorem completesWithin_of_wait {s : State} {k : Nat} (hinv : Inv s) (busy : s.status.busy = true)
    (turn : s.turns.head? = some (.wait k)) : CompletesWithin (k + 2) s := by
  induction k generalizing s with
  | zero =>
    obtain ⟨t, hstep, hinv', busy', turn'⟩ := step_of_wait_busy hinv busy turn
    exact .of_step hstep (.of_codecNext hinv' busy' (.inr turn'))
  | succ k ih =>
    obtain ⟨t, hstep, hinv', busy', turn'⟩ := step_of_wait_busy hinv busy turn
    exact .of_step hstep (ih hinv' busy' turn')

/-- A host access that is a transaction only takes its turn off the schedule of a busy block (R45, R46). -/
theorem step_of_host_busy {s : State} {a : BusAccess} {ts : List Turn} (hinv : Inv s) (busy : s.status.busy = true)
    (hts : s.turns = .host a :: ts) (hmap : refusedTurn s.cfg.bufLen (.host a) = false) :
    ∃ t, step s = .next t ∧ Inv t ∧ t.status.busy = true ∧ t.turns = ts ∧ t.cfg = s.cfg := by
  obtain ⟨tx, htx⟩ := Option.isSome_iff_exists.mp (Option.isNone_eq_false_iff.mp hmap)
  have hstep := step_of_transaction (congrArg List.head? hts) htx
  rw [atTurn_of_cons hts] at hstep
  obtain ⟨hcfg, _, _, _, _, hstatus, _, _, hturns⟩ := State.perform_of_busy (s := s.setTurns ts) busy tx
  exact ⟨_, hstep, StepKeepsInvariants.stepKeepsInvariants s _ hinv hstep, hstatus ▸ busy, hturns, hcfg⟩

/-- The bound of O23, by induction on the schedule: the first turn that is not the host's access lets the codec complete. -/
theorem completesWithin_scheduleCost (ts : List Turn) {s : State} (hinv : Inv s) (busy : s.status.busy = true)
    (hts : s.turns = ts) (hmoves : ∀ tn ∈ ts, isResetTurn tn = false ∧ refusedTurn s.cfg.bufLen tn = false) :
    CompletesWithin (scheduleCost ts) s := by
  induction ts generalizing s with
  | nil => exact .of_codecNext hinv busy (.inl hts)
  | cons tn ts ih =>
    obtain ⟨⟨hnoReset, hmap⟩, hrest⟩ := List.forall_mem_cons.mp hmoves
    rw [scheduleCost_cons]
    cases tn with
    | codec => exact (CompletesWithin.of_codecNext hinv busy (.inr (by rw [hts]; rfl))).mono (Nat.le_add_right 1 _)
    | wait k => exact (completesWithin_of_wait hinv busy (by rw [hts]; rfl)).mono (Nat.le_add_right (k + 2) _)
    | host a =>
      obtain ⟨t, hstep, hinv', busy', hts', hcfg⟩ := step_of_host_busy hinv busy hts hmap
      rw [turnCost, Nat.add_comm]
      exact .of_step hstep (ih hinv' busy' hts' (hcfg ▸ hrest))
    | reset => cases hnoReset
    | powerUp => cases hnoReset

/-- Settles O23: the bound for the schedule at hand. -/
theorem pendingCommandCompletes : Obligations.PendingCommandCompletes := by
  unfold Obligations.PendingCommandCompletes
  intro s hinv busy hmoves
  exact completesWithin_scheduleCost s.turns hinv busy rfl hmoves

end Sys2Proof.Proofs.PendingCommandCompletes
end

section
/-! PROOFS. RunCommand (R312): the codec neither reads nor writes the host's record, so polls between Issue and Complete change
nothing else. -/

namespace Sys2Proof.Machine

open Sys2Proof.Safety

/-- The state with more on the host's record, newest first. -/
def State.logReads (s : State) (rs : List Reading) : State := { s with reads := rs ++ s.reads }

/-- A read before the others goes to the end of what they log. -/
theorem State.logReads_logRead (s : State) (r : Reading) (n : Nat) :
    (s.logRead r).logReads (List.replicate n r) = s.logReads (List.replicate (n + 1) r) := by
  simp [State.logReads, State.logRead, List.replicate_succ']

/-- A decoder does not look at the host's record (log 4). -/
theorem State.decodeWith_logReads (s : State) (rs : List Reading) (f : List Byte → Option Decoded) :
    (s.logReads rs).decodeWith f = (s.decodeWith f).logReads rs := by
  have hoperand : (s.logReads rs).seqOperand = s.seqOperand := State.seqOperand_congr rfl rfl fun _ _ => rfl
  simp only [State.decodeWith, hoperand]
  rcases s.seqOperand.bind f with _ | v | k <;> rfl

/-- An encoder's end does not look at the host's record (log 4). -/
theorem deliverSequence_logReads {s t : State} {bs : List Byte} (rs : List Reading) (h : deliverSequence s bs = .next t) :
    deliverSequence (s.logReads rs) bs = .next (t.logReads rs) := by
  obtain ⟨hfit, rfl⟩ := deliverSequence_next h
  exact deliverSequence_of_le (s := s.logReads rs) hfit

/-- No command looks at the host's record (log 4). -/
theorem exec_logReads {i : Instr} {s t : State} (rs : List Reading) (h : exec i s = .next t) :
    exec i (s.logReads rs) = .next (t.logReads rs) := by
  cases i with
  | encz n => exact deliverSequence_logReads rs h
  | encp n => exact deliverSequence_logReads rs h
  | decz n =>
    rw [exec_decz] at h ⊢
    cases h
    rw [State.decodeWith_logReads]
  | decp n =>
    rw [exec_decp] at h ⊢
    cases h
    rw [State.decodeWith_logReads]
  | chkd n => cases h; rfl

/-- The codec's turn does not look at the host's record (log 4). -/
theorem codecTurn_logReads {s t : State} (rs : List Reading) (h : codecTurn s = .next t) :
    codecTurn (s.logReads rs) = .next (t.logReads rs) := by
  rcases codecTurn_next h with ⟨idle, rfl⟩ | ⟨busy, i, hd, hi⟩ | ⟨busy, e, hd, rfl⟩
  · exact codecTurn_of_idle idle
  · exact (codecTurn_of_command (s := s.logReads rs) busy hd).trans (exec_logReads rs hi)
  · exact codecTurn_of_illegal (s := s.logReads rs) busy hd

/-- Complete leaves the schedule and the host's record alone. -/
theorem CompleteEffect.turns_reads {s t : State} (effect : CompleteEffect s t) : t.turns = s.turns ∧ t.reads = s.reads := by
  cases effect <;> exact ⟨rfl, rfl⟩

/-- One poll of a host that reads STATUS (R46, R106). -/
theorem step_of_poll {s : State} {ts : List Turn} (hts : s.turns = pollTurn :: ts) :
    step s = .next ((s.logRead (.status s.status.word)).setTurns ts) := by
  rw [step_of_transaction (congrArg List.head? hts) (BusAccess.transaction_rd8_status _), atTurn_of_cons hts]
  rfl

/-- The codec's turn at the head of a schedule. -/
theorem step_setTurns_codec (s : State) (ts : List Turn) :
    step (s.setTurns (.codec :: ts)) = codecTurn (s.setTurns ts) :=
  step_of_codecNext (s := s.setTurns (.codec :: ts)) (.inr rfl)

/-- Polls take their turns off the schedule and log what `STATUS` reads as. -/
theorem run_polls {s : State} {ts : List Turn} (n k : Nat) (hts : s.turns = List.replicate n pollTurn ++ ts) :
    Sys2Proof.core.run (n + k) s =
      Sys2Proof.core.run k ((s.logReads (List.replicate n (.status s.status.word))).setTurns ts) := by
  induction n generalizing s with
  | zero =>
    obtain rfl : s.turns = ts := hts
    rw [Nat.zero_add]
    rfl
  | succ n ih =>
    rw [Nat.add_right_comm, run_succ_of_step (step_of_poll hts), ih rfl, ← State.logReads_logRead]
    rfl

/-- Polls before a Complete only log what `STATUS` reads as (R46, R312). -/
theorem run_polls_codec {s u : State} {polls : Nat} {rest : List Turn}
    (hts : s.turns = List.replicate polls pollTurn ++ .codec :: rest) (hu : codecTurn (s.setTurns rest) = .next u) :
    Sys2Proof.core.run (polls + 1) s = .next (u.logReads (List.replicate polls (.status s.status.word))) := by
  rw [run_polls polls 1 hts]
  exact run_succ_of_step ((step_setTurns_codec (s.logReads _) rest).trans (codecTurn_logReads _ hu)) 0

end Sys2Proof.Machine

namespace Sys2Proof.Proofs.IssueThenCompleteIsOneStep

open Sys2Proof.Machine Sys2Proof.Safety

/-- The step of an accepted Issue (O8), with the rest of the schedule named. -/
theorem step_of_issue_idle {s : State} {c : Byte} {ts : List Turn} (idle : s.status.busy = false)
    (hts : s.turns = .host (.wr8 0x10 c) :: ts) :
    step s = .next (((s.setCur c).setStatus Status.issued).setTurns ts) := by
  rw [(IssueLatchesOrIsDropped.issueLatchesOrIsDropped s c (congrArg List.head? hts)).1 idle, atTurn_of_cons hts]
  rfl

/-- Settles O24: Issue leaves `STATUS` at 0x01, each poll logs that byte, and the codec's turn ends as without the polls. -/
theorem issueThenCompleteIsOneStep : Obligations.IssueThenCompleteIsOneStep := by
  unfold Obligations.IssueThenCompleteIsOneStep
  intro s c polls rest hcfg idle hts
  have hstep := step_of_issue_idle idle hts
  obtain ⟨u, hu⟩ := codecTurn_progress (s := ((s.setCur c).setStatus Status.issued).setTurns rest) hcfg
  obtain ⟨hturns, hreads⟩ := (codecTurn_completeEffect rfl hu).turns_reads
  refine ⟨u.logReads (List.replicate polls (.status Status.issued.word)), u, ?_, ?_,
    ⟨rfl, rfl, rfl, rfl, rfl, rfl, rfl, rfl⟩, hturns, ?_⟩
  · exact (run_succ_of_step hstep (polls + 1)).trans (run_polls_codec rfl hu)
  · rw [runCommand, State.issue_of_idle (s := s.setTurns rest) idle]
    exact hu
  · rw [State.logReads, hreads, Status.issued_word]
    rfl

end Sys2Proof.Proofs.IssueThenCompleteIsOneStep
end
